-- ==== Sys2Proof/Word.lean ====
section
/-! DEFINITION. The widths of the CHIP-8 core (00_scope.md R6, R8): bytes, 16-bit words, 12-bit addresses, and the
indexes of its fixed files. All values are unsigned (R8). -/

namespace Sys2Proof

/-- An 8-bit value: a general register, a timer, a byte of memory (10_state.md R21, R26, 20_memory.md R50). -/
abbrev Byte := BitVec 8

/-- A 16-bit value: the pc, the index register, an instruction word, a saved pc (10_state.md R23 to R25, R30). -/
abbrev Word := BitVec 16

/-- The 12-bit address field `nnn` of an instruction word (30_encoding.md R70). -/
abbrev Addr := BitVec 12

/-- The number of a general register, 0 (V0) to 15 (VF) (10_state.md R21). -/
abbrev Reg := Fin 16

/-- The number of a key of the keypad (10_state.md R29). -/
abbrev Key := Fin 16

/-- A row of the framebuffer, counted downward (41_display.md R113). -/
abbrev Row := Fin 32

/-- A column of the framebuffer, counted to the right (41_display.md R113). -/
abbrev Col := Fin 64

end Sys2Proof
end

