-- ==== Sys2Proof/Syntax.lean ====
section
/-! DEFINITION. The instructions: one constructor per row of spec/opcode_table.json (30_encoding.md R73), with the fields
its format names (R71). Register numbers and the row count are `Fin 16`; immediates and addresses are bit vectors. -/

namespace Sys2Proof

/-- The 35 operations of 30_encoding.md R73. -/
inductive Instr where
  /-- 00E0, 41_display.md R110. -/
  | cls
  /-- 00EE, 42_flow.md R121. -/
  | ret
  /-- 0nnn other than 00E0 and 00EE, 42_flow.md R120. -/
  | sys (nnn : Addr)
  /-- 1nnn, 42_flow.md R122. -/
  | jp (nnn : Addr)
  /-- 2nnn, 42_flow.md R123. -/
  | call (nnn : Addr)
  /-- 3xnn, 42_flow.md R124. -/
  | seImm (x : Reg) (nn : Byte)
  /-- 4xnn, 42_flow.md R125. -/
  | sneImm (x : Reg) (nn : Byte)
  /-- 5xy0, 42_flow.md R126. -/
  | seReg (x y : Reg)
  /-- 6xnn, 43_alu.md R141. -/
  | ldImm (x : Reg) (nn : Byte)
  /-- 7xnn, 43_alu.md R142. -/
  | addImm (x : Reg) (nn : Byte)
  /-- 8xy0, 43_alu.md R143. -/
  | ldReg (x y : Reg)
  /-- 8xy1, 43_alu.md R144. -/
  | or (x y : Reg)
  /-- 8xy2, 43_alu.md R145. -/
  | and (x y : Reg)
  /-- 8xy3, 43_alu.md R146. -/
  | xor (x y : Reg)
  /-- 8xy4, 43_alu.md R147. -/
  | addReg (x y : Reg)
  /-- 8xy5, 43_alu.md R148. -/
  | sub (x y : Reg)
  /-- 8xy6, 43_alu.md R149; y is decoded and unused (30_encoding.md R76). -/
  | shr (x y : Reg)
  /-- 8xy7, 43_alu.md R150. -/
  | subn (x y : Reg)
  /-- 8xyE, 43_alu.md R151; y is decoded and unused (30_encoding.md R76). -/
  | shl (x y : Reg)
  /-- 9xy0, 42_flow.md R127. -/
  | sneReg (x y : Reg)
  /-- Annn, 44_index_memory.md R160. -/
  | ldI (nnn : Addr)
  /-- Bnnn, 42_flow.md R128. -/
  | jpV0 (nnn : Addr)
  /-- Cxnn, 43_alu.md R152. -/
  | rnd (x : Reg) (nn : Byte)
  /-- Dxyn, 41_display.md R111. -/
  | drw (x y : Reg) (n : Fin 16)
  /-- Ex9E, 45_keys_timers.md R180. -/
  | skp (x : Reg)
  /-- ExA1, 45_keys_timers.md R181. -/
  | sknp (x : Reg)
  /-- Fx07, 45_keys_timers.md R182. -/
  | ldVxDt (x : Reg)
  /-- Fx0A, 45_keys_timers.md R183. -/
  | ldVxK (x : Reg)
  /-- Fx15, 45_keys_timers.md R184. -/
  | ldDtVx (x : Reg)
  /-- Fx18, 45_keys_timers.md R185. -/
  | ldStVx (x : Reg)
  /-- Fx1E, 44_index_memory.md R161. -/
  | addI (x : Reg)
  /-- Fx29, 44_index_memory.md R162. -/
  | ldF (x : Reg)
  /-- Fx33, 44_index_memory.md R163. -/
  | ldB (x : Reg)
  /-- Fx55, 44_index_memory.md R164. -/
  | storeBlock (x : Reg)
  /-- Fx65, 44_index_memory.md R165. -/
  | loadBlock (x : Reg)
deriving DecidableEq, Repr

end Sys2Proof
end

