-- ==== Sys2Proof/Decode.lean ====
section
/-! DEFINITION. The fields of an instruction word (30_encoding.md R70), the decode procedure (R74), total on any word and
any bytes, and the encoder, the concatenation of the fields in the layout of R71. -/

namespace Sys2Proof

/-- Why bytes decode to no instruction. -/
inductive DecodeError where
  /-- The word is one of R75's unrecognized words. -/
  | unrecognized (w : Word)
  /-- Fewer than the two bytes of an instruction word (R70); never met by the fetch, which reads two. -/
  | truncated
deriving DecidableEq, Repr

/-- `op = w[15:12]`, the family (R70). -/
def opField (w : Word) : BitVec 4 := w.extractLsb' 12 4

/-- `x = w[11:8]` (R70). -/
def xField (w : Word) : Reg := (w.extractLsb' 8 4).toFin

/-- `y = w[7:4]` (R70). -/
def yField (w : Word) : Reg := (w.extractLsb' 4 4).toFin

/-- `n = w[3:0]` as function bits (R70). -/
def fnField (w : Word) : BitVec 4 := w.extractLsb' 0 4

/-- `n = w[3:0]` as the row count of Dxyn (R70, R72). -/
def nField (w : Word) : Fin 16 := (w.extractLsb' 0 4).toFin

/-- `nn = w[7:0]` (R70). -/
def nnField (w : Word) : Byte := w.extractLsb' 0 8

/-- `nnn = w[11:0]` (R70). -/
def nnnField (w : Word) : Addr := w.extractLsb' 0 12

/-- Family 0 (R74): 00E0 and 00EE as whole words, any other word is SYS. -/
def decodeFamily0 (w : Word) : Instr :=
  if w = 0x00E0#16 then .cls else if w = 0x00EE#16 then .ret else .sys (nnnField w)

/-- Family 8 (R74), selected by the function nibble. -/
def decodeFamily8 (w : Word) : Except DecodeError Instr :=
  match fnField w with
  | 0x0#4 => .ok (.ldReg (xField w) (yField w))
  | 0x1#4 => .ok (.or (xField w) (yField w))
  | 0x2#4 => .ok (.and (xField w) (yField w))
  | 0x3#4 => .ok (.xor (xField w) (yField w))
  | 0x4#4 => .ok (.addReg (xField w) (yField w))
  | 0x5#4 => .ok (.sub (xField w) (yField w))
  | 0x6#4 => .ok (.shr (xField w) (yField w))
  | 0x7#4 => .ok (.subn (xField w) (yField w))
  | 0xE#4 => .ok (.shl (xField w) (yField w))
  | _ => .error (.unrecognized w)

/-- Family E (R74), selected by the function byte. -/
def decodeFamilyE (w : Word) : Except DecodeError Instr :=
  match nnField w with
  | 0x9E#8 => .ok (.skp (xField w))
  | 0xA1#8 => .ok (.sknp (xField w))
  | _ => .error (.unrecognized w)

/-- Family F (R74), selected by the function byte. -/
def decodeFamilyF (w : Word) : Except DecodeError Instr :=
  match nnField w with
  | 0x07#8 => .ok (.ldVxDt (xField w))
  | 0x0A#8 => .ok (.ldVxK (xField w))
  | 0x15#8 => .ok (.ldDtVx (xField w))
  | 0x18#8 => .ok (.ldStVx (xField w))
  | 0x1E#8 => .ok (.addI (xField w))
  | 0x29#8 => .ok (.ldF (xField w))
  | 0x33#8 => .ok (.ldB (xField w))
  | 0x55#8 => .ok (.storeBlock (xField w))
  | 0x65#8 => .ok (.loadBlock (xField w))
  | _ => .error (.unrecognized w)

/-- The decode procedure of R74, a total function from any word. -/
def decode (w : Word) : Except DecodeError Instr :=
  match opField w with
  | 0x0#4 => .ok (decodeFamily0 w)
  | 0x1#4 => .ok (.jp (nnnField w))
  | 0x2#4 => .ok (.call (nnnField w))
  | 0x3#4 => .ok (.seImm (xField w) (nnField w))
  | 0x4#4 => .ok (.sneImm (xField w) (nnField w))
  | 0x5#4 => if fnField w = 0x0#4 then .ok (.seReg (xField w) (yField w)) else .error (.unrecognized w)
  | 0x6#4 => .ok (.ldImm (xField w) (nnField w))
  | 0x7#4 => .ok (.addImm (xField w) (nnField w))
  | 0x8#4 => decodeFamily8 w
  | 0x9#4 => if fnField w = 0x0#4 then .ok (.sneReg (xField w) (yField w)) else .error (.unrecognized w)
  | 0xA#4 => .ok (.ldI (nnnField w))
  | 0xB#4 => .ok (.jpV0 (nnnField w))
  | 0xC#4 => .ok (.rnd (xField w) (nnField w))
  | 0xD#4 => .ok (.drw (xField w) (yField w) (nField w))
  | 0xE#4 => decodeFamilyE w
  | 0xF#4 => decodeFamilyF w
  -- all sixteen values of the nibble stand above
  | _ => .error (.unrecognized w)

/-- Two consecutive bytes as one word, big-endian: the first is `w[15:8]` (20_memory.md R53). -/
def wordOfBytes (first second : Byte) : Word := BitVec.ofNat 16 (first.toNat * 256 + second.toNat)

/-- `w[15:8]`, the byte stored at the lower address (20_memory.md R53). -/
def firstByte (w : Word) : Byte := w.extractLsb' 8 8

/-- `w[7:0]`, the byte stored at the higher address (20_memory.md R53). -/
def secondByte (w : Word) : Byte := w.extractLsb' 0 8

/-- Decode the instruction at the head of a byte sequence; it always takes exactly two bytes (R70). -/
def decodeBytes : List Byte → Except DecodeError (Instr × List Byte)
  | a :: b :: rest => (decode (wordOfBytes a b)).map (fun i => (i, rest))
  | [_] | [] => .error .truncated

/-- A register number as four bits of a word. -/
def regBits (x : Reg) : BitVec 4 := BitVec.ofFin x

/-- Format ADDR of R71: `o nnn nnn nnn`. -/
def formatAddr (op : BitVec 4) (nnn : Addr) : Word := op ++ nnn

/-- Formats REG_IMM and REG_FN of R71: `o x nn nn` and `o x ff ff`. -/
def formatRegByte (op : BitVec 4) (x : Reg) (low : Byte) : Word := op ++ regBits x ++ low

/-- Formats REG_REG and DRAW of R71: `o x y f` and `o x y n`. -/
def formatRegReg (op : BitVec 4) (x y : Reg) (low : BitVec 4) : Word := op ++ regBits x ++ regBits y ++ low

/-- The word of an instruction (the patterns of R73 in the layouts of R71). -/
def encode : Instr → Word
  | .cls => 0x00E0#16
  | .ret => 0x00EE#16
  | .sys nnn => formatAddr 0x0#4 nnn
  | .jp nnn => formatAddr 0x1#4 nnn
  | .call nnn => formatAddr 0x2#4 nnn
  | .seImm x nn => formatRegByte 0x3#4 x nn
  | .sneImm x nn => formatRegByte 0x4#4 x nn
  | .seReg x y => formatRegReg 0x5#4 x y 0x0#4
  | .ldImm x nn => formatRegByte 0x6#4 x nn
  | .addImm x nn => formatRegByte 0x7#4 x nn
  | .ldReg x y => formatRegReg 0x8#4 x y 0x0#4
  | .or x y => formatRegReg 0x8#4 x y 0x1#4
  | .and x y => formatRegReg 0x8#4 x y 0x2#4
  | .xor x y => formatRegReg 0x8#4 x y 0x3#4
  | .addReg x y => formatRegReg 0x8#4 x y 0x4#4
  | .sub x y => formatRegReg 0x8#4 x y 0x5#4
  | .shr x y => formatRegReg 0x8#4 x y 0x6#4
  | .subn x y => formatRegReg 0x8#4 x y 0x7#4
  | .shl x y => formatRegReg 0x8#4 x y 0xE#4
  | .sneReg x y => formatRegReg 0x9#4 x y 0x0#4
  | .ldI nnn => formatAddr 0xA#4 nnn
  | .jpV0 nnn => formatAddr 0xB#4 nnn
  | .rnd x nn => formatRegByte 0xC#4 x nn
  | .drw x y n => formatRegReg 0xD#4 x y (regBits n)
  | .skp x => formatRegByte 0xE#4 x 0x9E#8
  | .sknp x => formatRegByte 0xE#4 x 0xA1#8
  | .ldVxDt x => formatRegByte 0xF#4 x 0x07#8
  | .ldVxK x => formatRegByte 0xF#4 x 0x0A#8
  | .ldDtVx x => formatRegByte 0xF#4 x 0x15#8
  | .ldStVx x => formatRegByte 0xF#4 x 0x18#8
  | .addI x => formatRegByte 0xF#4 x 0x1E#8
  | .ldF x => formatRegByte 0xF#4 x 0x29#8
  | .ldB x => formatRegByte 0xF#4 x 0x33#8
  | .storeBlock x => formatRegByte 0xF#4 x 0x55#8
  | .loadBlock x => formatRegByte 0xF#4 x 0x65#8

/-- The instruction word a table row's bits stand for: `nbits` low bits of `w`, every higher bit 0. One word of 16 bits
is a whole instruction here, so the table's numbering is the word's own (30_encoding.md R70; log 33). -/
def tableWord (nbits w : Nat) : Word := BitVec.ofNat 16 (w % 2 ^ nbits)

/-- The instruction the decoder reads from a table row's bits, laid out as the hardware stores them. -/
def decodeTableWord (nbits w : Nat) : Option Instr :=
  match decodeBytes [firstByte (tableWord nbits w), secondByte (tableWord nbits w)] with
  | .ok (i, _) => some i
  | .error _ => none

end Sys2Proof
end

