-- ==== Sys2Proof/Config.lean ====
section
/-! DEFINITION. The sizes the spec fixes (00_scope.md R6), the type of the parameters it leaves open (R7), and the two
free values (the draws RNG and KEYWAIT_CHOICE of R7). -/

namespace Sys2Proof

namespace Config

/-- MEM_SIZE (R6). -/
abbrev memSize : Nat := 4096

/-- PROG_BASE: the reset pc and the load address (R6). -/
abbrev progBase : Nat := 0x200

/-- MAX_PROG: 4096 - 0x200 (R6). -/
abbrev maxProg : Nat := 3584

/-- FONT_SIZE: 16 glyphs of 5 bytes at FONT_BASE = 0x000 (R6). -/
abbrev fontSize : Nat := 80

/-- FREE VALUE (R7, 43_alu.md R152, log 5): the byte of the k-th RNG draw. No body: any byte, under no law. -/
opaque rng : Nat → Byte

/-- FREE VALUE (R7, 45_keys_timers.md R183, log 6): what the k-th KEYWAIT_CHOICE draw picks among several pressed keys,
taken modulo their number by its one user. No body: any of them. -/
opaque keyWaitChoice : Nat → Nat

end Config

/-- The parameters of 00_scope.md R7 that a model takes as arguments, as plain data: they stand in State (log 1), are
written by nothing, and a statement about every state is a statement about every value of them. -/
structure Params where
  /-- STACK_DEPTH, at least 1 (R7, 10_state.md R25). -/
  stackDepth : Nat
  /-- FONT less its bytes 0 to 4, which R7 fixes: glyphs 1 to F of 10_state.md R33, five bytes each. -/
  glyphs : Vector (Vector Byte 5) 15
  /-- TICK_IN_STEP (R7, 40_step_cycle.md R99). -/
  tickInStep : Bool
deriving DecidableEq, Repr

end Sys2Proof
end

