-- ==== Sys2Proof/Machine/Parameters.lean ====
section
/-! DEFINITION. The font bytes, the reset contents of memory, and the default values of the parameters
(00_scope.md R7, 10_state.md R33, 20_memory.md R56). -/

namespace Sys2Proof.Machine

/-- Glyph 0, FONT bytes 0 to 4: the one glyph the source gives (10_state.md R33). -/
def glyphZero : Vector Byte 5 := #v[0xF0#8, 0x90#8, 0x90#8, 0x90#8, 0xF0#8]

/-- PRESUMED (log 3): glyphs 1 to F of the conventional font, the spec's default (10_state.md R33, D14). -/
def defaultGlyphs : Vector (Vector Byte 5) 15 := #v[
  #v[0x20#8, 0x60#8, 0x20#8, 0x20#8, 0x70#8],
  #v[0xF0#8, 0x10#8, 0xF0#8, 0x80#8, 0xF0#8],
  #v[0xF0#8, 0x10#8, 0xF0#8, 0x10#8, 0xF0#8],
  #v[0x90#8, 0x90#8, 0xF0#8, 0x10#8, 0x10#8],
  #v[0xF0#8, 0x80#8, 0xF0#8, 0x10#8, 0xF0#8],
  #v[0xF0#8, 0x80#8, 0xF0#8, 0x90#8, 0xF0#8],
  #v[0xF0#8, 0x10#8, 0x20#8, 0x40#8, 0x40#8],
  #v[0xF0#8, 0x90#8, 0xF0#8, 0x90#8, 0xF0#8],
  #v[0xF0#8, 0x90#8, 0xF0#8, 0x10#8, 0xF0#8],
  #v[0xF0#8, 0x90#8, 0xF0#8, 0x90#8, 0x90#8],
  #v[0xE0#8, 0x90#8, 0xE0#8, 0x90#8, 0xE0#8],
  #v[0xF0#8, 0x80#8, 0x80#8, 0x80#8, 0xF0#8],
  #v[0xE0#8, 0x90#8, 0x90#8, 0x90#8, 0xE0#8],
  #v[0xF0#8, 0x80#8, 0xF0#8, 0x80#8, 0xF0#8],
  #v[0xF0#8, 0x80#8, 0xF0#8, 0x80#8, 0x80#8]]

/-- Byte `r` of glyph `k`: FONT byte `5k + r` (10_state.md R33). -/
def glyphByte (p : Params) (k r : Nat) : Byte :=
  match k with
  | 0 => glyphZero[r]?.getD 0
  | k + 1 => (p.glyphs[k]?.bind (fun g => g[r]?)).getD 0

/-- What an address holds after reset, and so what an address the memory does not list reads as: FONT in 0x000 to 0x04F,
0x00 above (10_state.md R33, 20_memory.md R56; log 27). -/
def resetByte (p : Params) (a : Nat) : Byte :=
  if a < Config.fontSize then glyphByte p (a / 5) (a % 5) else 0#8

/-- The default parameters: STACK_DEPTH 16 (PRESUMED, log 2), the conventional font (PRESUMED, log 3), TICK_IN_STEP true
(DESIGN CHOICE of the spec, D10, log 4). -/
def defaultParams : Params := { stackDepth := 16, glyphs := defaultGlyphs, tickInStep := true }

end Sys2Proof.Machine
end

