-- ==== Sys2Proof/Machine/State.lean ====
section
/-! DEFINITION. The state of the core (10_state.md R20) as plain data, the fields the model adds to it, the two reason
types of a step, and the state after reset (10_state.md R33, 70_reset_and_hazards.md R230). -/

namespace Sys2Proof.Machine

/-- A fault of Host's kind ends the run with no state. The core has none: a decode fault goes on, and a hard fault leaves
a state of the core with `fault` set (40_step_cycle.md R97, R98, R91), so both are next states (log 8). No constructor:
nothing raises one, and that is safe. -/
inductive Fault
deriving DecidableEq, Repr

/-- Why the model has no meaning for an instruction. -/
inductive Refusal where
  /-- Raised by an arm of `exec` whose instruction has no meaning yet, under its mnemonic. Safe: the run stops. No arm of
  this model raises it. -/
  | notModelled (mnemonic : String)
deriving DecidableEq, Repr

/-- The hard faults: those that stop stepping until reset (60_exceptions.md R201). -/
inductive HardFault where
  /-- Code 2: 2nnn with STACK_DEPTH entries on the stack (R203). -/
  | stackOverflow
  /-- Code 3: 00EE with an empty stack (R204). -/
  | stackUnderflow
  /-- Code 4: Ex9E or ExA1 with Vx above 15 (R205). -/
  | keyIndex
deriving DecidableEq, Repr

/-- The record a hard fault leaves (10_state.md R30). -/
structure FaultRecord where
  /-- The fault's name (and code). -/
  kind : HardFault
  /-- The instruction address A of the faulting step. -/
  addr : Word
  /-- The instruction word. -/
  word : Word
deriving DecidableEq, Repr

/-- What a step or a host tick emits (60_exceptions.md R215). -/
inductive Event where
  /-- An unrecognized word `w` at `A` (R202). -/
  | decodeFault (addr word : Word)
  /-- A hard fault (R203 to R205). -/
  | hardFault (kind : HardFault) (addr word : Word)
  /-- The sound timer was decremented to zero (45_keys_timers.md R187). -/
  | tone
deriving DecidableEq, Repr

/-- What one call of step() returns (40_step_cycle.md R100). -/
inductive StepOutcome where
  /-- The step completed. -/
  | ran
  /-- A hard fault was raised in this step. -/
  | faulted
  /-- The core was already faulted. -/
  | halted
deriving DecidableEq, Repr

/-- Memory as the bytes that differ from their reset contents, by rising address (log 27; the form is `Memory.wf`). -/
abbrev Memory := List Host.Cell

/-- The pixels `fb[py][px]`, row by row; `true` is lit (10_state.md R27, 41_display.md R113). -/
abbrev Framebuffer := Vector (Vector Bool 64) 32

/-- The state of the core: the tuple of 10_state.md R20, then the model's own fields. -/
structure State where
  /-- The 4096 bytes of memory (R20, 20_memory.md R50). -/
  mem : Memory
  /-- V0 to VF (R21, R22). -/
  v : Vector Byte 16
  /-- I: 16 bits whose value is always below 4096 (R23). -/
  iReg : Word
  /-- The program counter, all 16 bits (R24). -/
  pc : Word
  /-- The call stack, the most recently pushed entry first (R25; log 25). -/
  stack : List Word
  /-- The delay timer DT (R26). -/
  dt : Byte
  /-- The sound timer ST (R26). -/
  st : Byte
  /-- The framebuffer (R27). -/
  fb : Framebuffer
  /-- A redraw is owed to the host (R28). -/
  dirty : Bool
  /-- `key[0..15]`, true when pressed (R29). -/
  key : Vector Bool 16
  /-- None while the core runs, or the record of the hard fault that stopped it (R30). -/
  fault : Option FaultRecord
  /-- MODEL'S OWN: the parameters of 00_scope.md R7 (log 1). -/
  params : Params
  /-- MODEL'S OWN: how many RNG draws were taken (log 5). -/
  rngDraws : Nat
  /-- MODEL'S OWN: how many KEYWAIT_CHOICE draws were taken (log 6). -/
  keyDraws : Nat
  /-- MODEL'S OWN: the events the latest step() or tick() returned, in order (60_exceptions.md R215; log 7). -/
  events : List Event
  /-- MODEL'S OWN: what the latest step() returned, none when none ran since reset (40_step_cycle.md R100; log 7). -/
  outcome : Option StepOutcome
deriving DecidableEq, Repr

/-- The machine right after reset (10_state.md R33), with the default parameters. -/
def State.reset : State where
  mem := []
  v := Vector.replicate 16 0#8
  iReg := 0x000#16
  pc := 0x200#16
  stack := []
  dt := 0#8
  st := 0#8
  fb := Vector.replicate 32 (Vector.replicate 64 false)
  dirty := false
  key := Vector.replicate 16 false
  fault := none
  params := defaultParams
  rngDraws := 0
  keyDraws := 0
  events := []
  outcome := none

end Sys2Proof.Machine
end

