-- ==== Sys2Proof/Machine/Ops.lean ====
section
/-! DEFINITION. The named operations over memory, registers, pc, stack, framebuffer, keypad, timers, draws and faults:
the primitives of 00_scope.md R9. Every meaning is written over these. -/

namespace Sys2Proof.Machine

/-! ## Memory (20_memory.md R50, R51; log 27) -/

/-- The byte at `a`: the listed one, else the reset contents. -/
def Memory.read (p : Params) : Memory → Nat → Byte
  | [], a => resetByte p a
  | (b, w) :: rest, a => if b = a then w else Memory.read p rest a

/-- The cells without any at `a`. -/
def Memory.erase (m : Memory) (a : Nat) : Memory := m.filter (fun c => c.1 != a)

/-- A cell put in its place by address. -/
def Memory.insert (a : Nat) (v : Byte) : Memory → Memory
  | [] => [(a, v)]
  | (b, w) :: rest => if a < b then (a, v) :: (b, w) :: rest else (b, w) :: Memory.insert a v rest

/-- Write `v` at `a`, keeping the canonical form: a byte equal to its reset contents is not listed. -/
def Memory.write (p : Params) (m : Memory) (a : Nat) (v : Byte) : Memory :=
  if v = resetByte p a then Memory.erase m a else Memory.insert a v (Memory.erase m a)

/-- The canonical form from address `lo` on: addresses strictly rising and below 4096, no cell equal to its reset byte. -/
def Memory.wfFrom (p : Params) : Nat → Memory → Bool
  | _, [] => true
  | lo, (a, v) :: rest => decide (lo ≤ a) && decide (a < Config.memSize) && (v != resetByte p a) && Memory.wfFrom p (a + 1) rest

/-- The canonical form of memory: equal memories are equal lists. -/
def Memory.wf (p : Params) (m : Memory) : Bool := Memory.wfFrom p 0 m

/-- `MemRead(a, 1)` of R9: any natural address, wrapped mod 4096 (R51; log 11). -/
def State.memRead (s : State) (a : Nat) : Byte := Memory.read s.params s.mem (a % Config.memSize)

/-- `MemWrite(a, 1, v)` of R9: any natural address, wrapped mod 4096 (R51; log 11); every address is writable (R57). -/
def State.memWrite (s : State) (a : Nat) (v : Byte) : State :=
  { s with mem := Memory.write s.params s.mem (a % Config.memSize) v }

/-! ## Registers (10_state.md R21 to R24) -/

/-- `V[x]`. -/
def State.getV (s : State) (x : Reg) : Byte := s.v.get x

/-- `V[x] <- b`. -/
def State.setV (s : State) (x : Reg) (b : Byte) : State := { s with v := s.v.set x b }

/-- `I <- n`: stores `n & 0xFFF`, so bits 15 to 12 of I always read 0 (10_state.md R23; log 26). -/
def State.setI (s : State) (n : Nat) : State := { s with iReg := BitVec.ofNat 16 n &&& 0x0FFF#16 }

/-- `pc <- t`: all 16 bits, mod 65536 (40_step_cycle.md R93; log 12). -/
def State.setPc (s : State) (t : Word) : State := { s with pc := t }

/-- `skip`: an additional advance past the next word (40_step_cycle.md R96). -/
def State.skip (s : State) : State := s.setPc (s.pc + 2#16)

/-- `if c then skip`. -/
def State.skipIf (s : State) (c : Bool) : State := if c then s.skip else s

/-! ## The call stack (10_state.md R25; log 25) -/

/-- The stack holds STACK_DEPTH entries. -/
def State.stackFull (s : State) : Bool := s.stack.length == s.params.stackDepth

/-- `push(a)`. -/
def State.push (s : State) (a : Word) : State := { s with stack := a :: s.stack }

/-- `pop()`: the most recently pushed entry and the state without it, none when the stack is empty. -/
def State.pop (s : State) : Option (Word × State) :=
  match s.stack with
  | [] => none
  | a :: rest => some (a, { s with stack := rest })

/-! ## The framebuffer (10_state.md R27, 41_display.md R113) -/

/-- `fb[py][px]`. -/
def Framebuffer.pixel (fb : Framebuffer) (py : Row) (px : Col) : Bool := (fb.get py).get px

/-- `fb[py][px] <- b`. -/
def Framebuffer.setPixel (fb : Framebuffer) (py : Row) (px : Col) (b : Bool) : Framebuffer :=
  fb.set py ((fb.get py).set px b)

/-- All 2048 pixels 0. -/
def Framebuffer.blank : Framebuffer := Vector.replicate 32 (Vector.replicate 64 false)

/-- `fb[py][px]` of the state. -/
def State.pixel (s : State) (py : Row) (px : Col) : Bool := Framebuffer.pixel s.fb py px

/-- Show `fb` and owe the host a redraw (10_state.md R28). -/
def State.display (s : State) (fb : Framebuffer) : State := { s with fb := fb, dirty := true }

/-! ## The keypad (10_state.md R29) -/

/-- `key[k]`. -/
def State.keyDown (s : State) (k : Key) : Bool := s.key.get k

/-- `{ k in 0..15 | key[k] }`, ascending (45_keys_timers.md R183). -/
def State.pressedKeys (s : State) : List Key := (List.finRange 16).filter s.keyDown

/-! ## Timers and events (45_keys_timers.md R184, R185, R187; 60_exceptions.md R215) -/

/-- `DT <- b`. -/
def State.setDt (s : State) (b : Byte) : State := { s with dt := b }

/-- `ST <- b`; a write emits nothing (45_keys_timers.md R185; log 24). -/
def State.setSt (s : State) (b : Byte) : State := { s with st := b }

/-- `emit e`: append an event to the output list (00_scope.md R9). -/
def State.emit (s : State) (e : Event) : State := { s with events := s.events ++ [e] }

/-- The decrement of DT in a tick (R187). -/
def State.tickDelay (s : State) : State := if s.dt = 0#8 then s else s.setDt (s.dt - 1#8)

/-- The decrement of ST in a tick, with a Tone on the transition to zero (R187). -/
def State.tickSound (s : State) : State :=
  if s.st = 0#8 then s
  else if s.st - 1#8 = 0#8 then (s.setSt (s.st - 1#8)).emit .tone
  else s.setSt (s.st - 1#8)

/-- `Tick()` (R187): both timers, DT first. -/
def State.tick (s : State) : State := s.tickDelay.tickSound

/-! ## Draws (00_scope.md R7) -/

/-- `draw RNG`: the free byte of this draw, and the counter moved on (43_alu.md R152; log 5). -/
def State.drawRandom (s : State) : Byte × State := (Config.rng s.rngDraws, { s with rngDraws := s.rngDraws + 1 })

/-- The key `draw KEYWAIT_CHOICE` takes from the pressed keys `ks` at draw number `c`: none where none is pressed, the key
where one is, any of them where several are (45_keys_timers.md R183; log 6). -/
def chooseKey (c : Nat) : List Key → Option Key
  | [] => none
  | [k] => some k
  | k :: l :: ks => some ((k :: l :: ks).getD (Config.keyWaitChoice c % (ks.length + 2)) k)

/-- The draw counter of KEYWAIT_CHOICE moved on. -/
def State.countKeyDraw (s : State) : State := { s with keyDraws := s.keyDraws + 1 }

/-! ## Taking a fault and leaving it (60_exceptions.md R208, R209; logs 8, 9, 34) -/

/-- The instruction address A during an execute phase, in which the pc holds A + 2 (10_state.md R24, 40_step_cycle.md
R95; log 9). -/
def State.instrAddr (s : State) : Word := s.pc - 2#16

/-- `raise k(A, w)`: a hard fault saves {k, A, w} in `fault`, emits Fault(k, A, w), and writes nothing else; the step
that calls it skips the tick (60_exceptions.md R208, 40_step_cycle.md R98). -/
def State.raiseFault (s : State) (k : HardFault) (w : Word) : State :=
  { s with fault := some { kind := k, addr := s.instrAddr, word := w } }.emit (.hardFault k s.instrAddr w)

/-- `reset()`, the only way out of a hard fault (60_exceptions.md R209, 70_reset_and_hazards.md R230): every component of
R20 at its reset value; the parameters and the draw counters, which are no state of the spec's, stay (log 22). -/
def State.hostReset (s : State) : State :=
  { State.reset with params := s.params, rngDraws := s.rngDraws, keyDraws := s.keyDraws }

end Sys2Proof.Machine
end

