-- ==== Sys2Proof/Machine/Cycle.lean ====
section
/-! DEFINITION. The phases of one step around the execute phase (40_step_cycle.md R90 to R100): fetch, pc advance, decode
fault, hard-fault abort, timer phase, outcome; and where the fetch finds its word. -/

namespace Sys2Proof.Machine

/-- The fetch (R92): the word at pc, big-endian, both addresses wrapped. -/
def fetchWord (s : State) : Word := wordOfBytes (s.memRead s.pc.toNat) (s.memRead (s.pc.toNat + 1))

/-- The pc adder's advance (R93), with this step's event list started empty (R100). -/
def beginStep (s : State) : State := { s with pc := s.pc + 2#16, events := [] }

/-- The timer phase and outcome of a step that completes its execute phase (R99, R100). -/
def completeStep (s : State) : State := { (if s.params.tickInStep then s.tick else s) with outcome := some .ran }

/-- The end of a step whose operation ran (R90): Faulted with no tick where it raised a hard fault (R98), else the timer
phase (R99). -/
def endStep (s : State) : State := if s.fault.isSome then { s with outcome := some .faulted } else completeStep s

/-- A step whose word `w` at `A` is unrecognized: the event, no operation, the timer phase (R97; log 17). -/
def decodeFaultStep (s : State) (A w : Word) : State := completeStep (s.emit (.decodeFault A w))

/-- A step of a faulted core (R91): no state change, no event, outcome Halted. -/
def haltedStep (s : State) : State := { s with events := [], outcome := some .halted }

/-- The word `w` stored where the next step fetches it, and no hard fault left to halt that step (R91, R92; log 28). -/
def placeWord (s : State) (w : Word) : State :=
  { (s.memWrite s.pc.toNat (firstByte w)).memWrite (s.pc.toNat + 1) (secondByte w) with fault := none }

end Sys2Proof.Machine
end

