-- ==== Sys2Proof/Machine/Flags.lean ====
section
/-! DEFINITION. The flag VF and every flag computation (10_state.md R22, 43_alu.md R140, 41_display.md R111). Each is
exactly 0 or 1. -/

namespace Sys2Proof.Machine

/-- VF, the flag register (10_state.md R22). -/
abbrev vf : Reg := 15

/-- A flag value, 0 or 1. -/
def flagByte (b : Bool) : Byte := if b then 1#8 else 0#8

/-- The carry of `a + b`: the exact sum exceeds 255 (43_alu.md R140, R147). -/
def carryFlag (a b : Byte) : Byte := flagByte (decide (a.toNat + b.toNat > 255))

/-- The no-borrow flag of `a - b`: `a >= b`, unsigned (43_alu.md R140, R148, R150). -/
def noBorrowFlag (a b : Byte) : Byte := flagByte (decide (a.toNat ≥ b.toNat))

/-- The bit a right shift moves out, bit 0 (43_alu.md R149). -/
def lowBitFlag (a : Byte) : Byte := a &&& 1#8

/-- The bit a left shift moves out, bit 7 (43_alu.md R151). -/
def highBitFlag (a : Byte) : Byte := (a >>> 7) &&& 1#8

/-- The collision flag of a draw (41_display.md R111). -/
def collisionFlag (hit : Bool) : Byte := flagByte hit

/-- `V[0xF] <- b`. -/
def State.setVF (s : State) (b : Byte) : State := s.setV vf b

end Sys2Proof.Machine
end

