-- ==== Sys2Proof/Machine/Operands.lean ====
section
/-! DEFINITION. The operand forms (30_encoding.md R71, R72) and the values the rules form from them: zero-extended
addresses, block and sprite addresses, the font address, BCD digits, the key lookup, sprite bits and pixel coordinates. -/

namespace Sys2Proof.Machine

/-- The absolute 12-bit target of a jump or call as a pc value; zero-extended, never pc-relative (30_encoding.md R72). -/
def targetOf (nnn : Addr) : Word := nnn.setWidth 16

/-- Bnnn's target `nnn + V[0]`, 0x000 to 0x10FE, not masked to 12 bits (42_flow.md R128). -/
def indexedTarget (nnn : Addr) (v0 : Byte) : Word := nnn.setWidth 16 + v0.setWidth 16

/-- The address `I + k` of byte `k` of a block or sprite at I; the access wraps it (20_memory.md R51). -/
def State.blockAddr (s : State) (k : Nat) : Nat := s.iReg.toNat + k

/-- `V[k]` as member `k` of the block V0..Vx (30_encoding.md R72). -/
def blockReg (k : Nat) : Reg := Fin.ofNat 16 k

/-- The number of registers of the block V0..Vx (30_encoding.md R72). -/
def blockCount (x : Reg) : Nat := x.val + 1

/-- The address of the glyph of a byte: the whole byte times 5 (44_index_memory.md R162). -/
def glyphAddr (b : Byte) : Nat := b.toNat * 5

/-- The hundreds digit of a byte (44_index_memory.md R163). -/
def hundredsDigit (b : Byte) : Byte := BitVec.ofNat 8 (b.toNat / 100)

/-- The tens digit of a byte (44_index_memory.md R163). -/
def tensDigit (b : Byte) : Byte := BitVec.ofNat 8 (b.toNat / 10 % 10)

/-- The ones digit of a byte (44_index_memory.md R163). -/
def onesDigit (b : Byte) : Byte := BitVec.ofNat 8 (b.toNat % 10)

/-- `keyAt(v)`: the key numbered `v`, none where there is no such key (45_keys_timers.md R186; log 15). -/
def State.keyAt (s : State) (b : Byte) : Option Bool :=
  if h : b.toNat < 16 then some (s.keyDown ⟨b.toNat, h⟩) else none

/-- A key's index as the byte Fx0A stores (45_keys_timers.md R183). -/
def keyByte (k : Key) : Byte := BitVec.ofNat 8 k.val

/-- Bit `7 - c` of a sprite row, its pixel at column offset `c` (41_display.md R112; log 18). -/
def spriteBit (row : Byte) (c : Nat) : Bool := row.getLsbD (7 - c)

/-- `(cx + c) mod 64` (41_display.md R111). -/
def spriteCol (cx : Byte) (c : Nat) : Col := Fin.ofNat 64 (cx.toNat + c)

/-- `(cy + r) mod 32` (41_display.md R111). -/
def spriteRow (cy : Byte) (r : Nat) : Row := Fin.ofNat 32 (cy.toNat + r)

end Sys2Proof.Machine
end

