-- ==== Sys2Proof/Machine/Alu.lean ====
section
/-! DEFINITION. The register and ALU instructions (43_alu.md R140 to R152). Statements run in the rule's written order,
each reading the state the previous one left (00_scope.md R10; log 10). The pc is not changed. -/

namespace Sys2Proof.Machine

/-- 6xnn, LD Vx, nn (R141). -/
def execLdImm (x : Reg) (nn : Byte) (s : State) : Host.Outcome State Fault Refusal :=
  .next (s.setV x nn)

/-- 7xnn, ADD Vx, nn (R142): `trunc8`, no flag. -/
def execAddImm (x : Reg) (nn : Byte) (s : State) : Host.Outcome State Fault Refusal :=
  .next (s.setV x (s.getV x + nn))

/-- 8xy0, LD Vx, Vy (R143). -/
def execLdReg (x y : Reg) (s : State) : Host.Outcome State Fault Refusal :=
  .next (s.setV x (s.getV y))

/-- 8xy1, OR Vx, Vy (R144). -/
def execOr (x y : Reg) (s : State) : Host.Outcome State Fault Refusal :=
  .next (s.setV x (s.getV x ||| s.getV y))

/-- 8xy2, AND Vx, Vy (R145). -/
def execAnd (x y : Reg) (s : State) : Host.Outcome State Fault Refusal :=
  .next (s.setV x (s.getV x &&& s.getV y))

/-- 8xy3, XOR Vx, Vy (R146). -/
def execXor (x y : Reg) (s : State) : Host.Outcome State Fault Refusal :=
  .next (s.setV x (s.getV x ^^^ s.getV y))

/-- 8xy4, ADD Vx, Vy (R147): both operands are read first, the carry is written last. -/
def execAddReg (x y : Reg) (s : State) : Host.Outcome State Fault Refusal :=
  .next ((s.setV x (s.getV x + s.getV y)).setVF (carryFlag (s.getV x) (s.getV y)))

/-- `V[x] <- V[x] - V[y]` mod 256, reading the state it is given. -/
def State.subInto (s : State) (x y : Reg) : State := s.setV x (s.getV x - s.getV y)

/-- `V[x] <- V[y] - V[x]` mod 256, reading the state it is given. -/
def State.subNegInto (s : State) (x y : Reg) : State := s.setV x (s.getV y - s.getV x)

/-- `V[x] <- V[x] >> 1`, reading the state it is given. -/
def State.shiftRight (s : State) (x : Reg) : State := s.setV x (s.getV x >>> 1)

/-- `V[x] <- trunc8(V[x] << 1)`, reading the state it is given. -/
def State.shiftLeft (s : State) (x : Reg) : State := s.setV x (s.getV x <<< 1)

/-- 8xy5, SUB Vx, Vy (R148): the flag is written first, the difference is of the registers after that write. -/
def execSub (x y : Reg) (s : State) : Host.Outcome State Fault Refusal :=
  .next ((s.setVF (noBorrowFlag (s.getV x) (s.getV y))).subInto x y)

/-- 8xy6, SHR Vx (R149): the flag first; y is unused. -/
def execShr (x _y : Reg) (s : State) : Host.Outcome State Fault Refusal :=
  .next ((s.setVF (lowBitFlag (s.getV x))).shiftRight x)

/-- 8xy7, SUBN Vx, Vy (R150): the flag is written first, the difference is of the registers after that write. -/
def execSubn (x y : Reg) (s : State) : Host.Outcome State Fault Refusal :=
  .next ((s.setVF (noBorrowFlag (s.getV y) (s.getV x))).subNegInto x y)

/-- 8xyE, SHL Vx (R151): the flag first; y is unused. -/
def execShl (x _y : Reg) (s : State) : Host.Outcome State Fault Refusal :=
  .next ((s.setVF (highBitFlag (s.getV x))).shiftLeft x)

/-- Cxnn, RND Vx, nn (R152): a drawn byte masked by nn. -/
def execRnd (x : Reg) (nn : Byte) (s : State) : Host.Outcome State Fault Refusal :=
  .next (s.drawRandom.2.setV x (s.drawRandom.1 &&& nn))

end Sys2Proof.Machine
end

