-- ==== Sys2Proof/Machine/Display.lean ====
section
/-! DEFINITION. The display instructions (41_display.md R110 to R113): clear, and the XOR plot of a sprite with its
collision flag. The pc and I are not changed. -/

namespace Sys2Proof.Machine

/-- What a draw carries along: the framebuffer and whether a lit pixel was cleared so far (R111). -/
structure Plot where
  fb : Framebuffer
  hit : Bool
deriving DecidableEq, Repr

/-- One set sprite bit at (px, py): a collision where the pixel was lit, and the pixel toggled (R111). -/
def togglePixel (p : Plot) (py : Row) (px : Col) : Plot :=
  { fb := Framebuffer.setPixel p.fb py px (!(Framebuffer.pixel p.fb py px)), hit := p.hit || Framebuffer.pixel p.fb py px }

/-- The first `n` turns of R111's inner loop: the bits of one sprite row at column offsets 0 .. n-1. -/
def plotBits (p : Plot) (cx : Byte) (py : Row) (row : Byte) : Nat → Plot
  | 0 => p
  | c + 1 =>
    if spriteBit row c then togglePixel (plotBits p cx py row c) py (spriteCol cx c) else plotBits p cx py row c

/-- The first `n` turns of R111's outer loop: sprite rows 0 .. n-1, read from memory at I + r, drawn from (cx, cy). -/
def plotRows (s : State) (cx cy : Byte) : Nat → Plot
  | 0 => { fb := s.fb, hit := false }
  | r + 1 => plotBits (plotRows s cx cy r) cx (spriteRow cy r) (s.memRead (s.blockAddr r)) 8

/-- 00E0, CLS (R110): dirty is set even when nothing was lit. -/
def execCls (s : State) : Host.Outcome State Fault Refusal :=
  .next (s.display Framebuffer.blank)

/-- Dxyn, DRW Vx, Vy, n (R111): the coordinates are read before VF is written; VF and dirty always are. -/
def execDrw (x y : Reg) (n : Fin 16) (s : State) : Host.Outcome State Fault Refusal :=
  .next ((s.setVF (collisionFlag (plotRows s (s.getV x) (s.getV y) n.val).hit)).display
    (plotRows s (s.getV x) (s.getV y) n.val).fb)

end Sys2Proof.Machine
end

