-- ==== Sys2Proof/Machine/Flow.lean ====
section
/-! DEFINITION. Control transfer (42_flow.md R120 to R129): SYS, return, jump, call, the four register and immediate
skips, the indexed jump. The pc holds A + 2 at the start of each. -/

namespace Sys2Proof.Machine

/-- 0nnn, SYS nnn (R120): no operation (log 13). -/
def execSys (_nnn : Addr) (s : State) : Host.Outcome State Fault Refusal :=
  .next s

/-- 00EE, RET (R121): StackUnderflow on an empty stack, else the popped value, all 16 bits, is the pc. -/
def execRet (s : State) : Host.Outcome State Fault Refusal :=
  match s.pop with
  | none => .next (s.raiseFault .stackUnderflow (encode .ret))
  | some (a, t) => .next (t.setPc a)

/-- 1nnn, JP nnn (R122). -/
def execJp (nnn : Addr) (s : State) : Host.Outcome State Fault Refusal :=
  .next (s.setPc (targetOf nnn))

/-- 2nnn, CALL nnn (R123): StackOverflow at capacity, else the advanced pc is pushed. -/
def execCall (nnn : Addr) (s : State) : Host.Outcome State Fault Refusal :=
  if s.stackFull then .next (s.raiseFault .stackOverflow (encode (.call nnn)))
  else .next ((s.push s.pc).setPc (targetOf nnn))

/-- 3xnn, SE Vx, nn (R124). -/
def execSeImm (x : Reg) (nn : Byte) (s : State) : Host.Outcome State Fault Refusal :=
  .next (s.skipIf (s.getV x == nn))

/-- 4xnn, SNE Vx, nn (R125). -/
def execSneImm (x : Reg) (nn : Byte) (s : State) : Host.Outcome State Fault Refusal :=
  .next (s.skipIf (s.getV x != nn))

/-- 5xy0, SE Vx, Vy (R126). -/
def execSeReg (x y : Reg) (s : State) : Host.Outcome State Fault Refusal :=
  .next (s.skipIf (s.getV x == s.getV y))

/-- 9xy0, SNE Vx, Vy (R127). -/
def execSneReg (x y : Reg) (s : State) : Host.Outcome State Fault Refusal :=
  .next (s.skipIf (s.getV x != s.getV y))

/-- Bnnn, JP V0, nnn (R128): always V0, the sum not masked. -/
def execJpV0 (nnn : Addr) (s : State) : Host.Outcome State Fault Refusal :=
  .next (s.setPc (indexedTarget nnn (s.getV 0)))

end Sys2Proof.Machine
end

