-- ==== Sys2Proof/Machine/IndexMemory.lean ====
section
/-! DEFINITION. The index register and memory instructions (44_index_memory.md R160 to R165). Every write of I stores
`v & 0xFFF`, every address wraps mod 4096. The pc is not changed. -/

namespace Sys2Proof.Machine

/-- Annn, LD I, nnn (R160). -/
def execLdI (nnn : Addr) (s : State) : Host.Outcome State Fault Refusal :=
  .next (s.setI nnn.toNat)

/-- Fx1E, ADD I, Vx (R161): mod 4096, no flag. -/
def execAddI (x : Reg) (s : State) : Host.Outcome State Fault Refusal :=
  .next (s.setI (s.iReg.toNat + (s.getV x).toNat))

/-- Fx29, LD F, Vx (R162). -/
def execLdF (x : Reg) (s : State) : Host.Outcome State Fault Refusal :=
  .next (s.setI (glyphAddr (s.getV x)))

/-- The three digits of `b` at I, I+1, I+2, hundreds first (R163; log 19). -/
def State.storeDigits (s : State) (b : Byte) : State :=
  ((s.memWrite (s.blockAddr 0) (hundredsDigit b)).memWrite (s.blockAddr 1) (tensDigit b)).memWrite (s.blockAddr 2) (onesDigit b)

/-- Fx33, LD B, Vx (R163): I is not changed. -/
def execLdB (x : Reg) (s : State) : Host.Outcome State Fault Refusal :=
  .next (s.storeDigits (s.getV x))

/-- The first `n` turns of R164's loop: `MemWrite(I + k, 1, V[k])` for k = 0 .. n-1, ascending. -/
def State.storeRegs (s : State) : Nat → State
  | 0 => s
  | k + 1 => (s.storeRegs k).memWrite ((s.storeRegs k).blockAddr k) ((s.storeRegs k).getV (blockReg k))

/-- The first `n` turns of R165's loop: `V[k] <- MemRead(I + k, 1)` for k = 0 .. n-1, ascending. -/
def State.loadRegs (s : State) : Nat → State
  | 0 => s
  | k + 1 => (s.loadRegs k).setV (blockReg k) ((s.loadRegs k).memRead ((s.loadRegs k).blockAddr k))

/-- `I <- (I + x + 1) & 0xFFF` (R164, R165). -/
def State.advanceI (s : State) (x : Reg) : State := s.setI (s.blockAddr (blockCount x))

/-- Fx55, LD [I], Vx (R164). -/
def execStoreBlock (x : Reg) (s : State) : Host.Outcome State Fault Refusal :=
  .next ((s.storeRegs (blockCount x)).advanceI x)

/-- Fx65, LD Vx, [I] (R165). -/
def execLoadBlock (x : Reg) (s : State) : Host.Outcome State Fault Refusal :=
  .next ((s.loadRegs (blockCount x)).advanceI x)

end Sys2Proof.Machine
end

