-- ==== Sys2Proof/Machine/KeysTimers.lean ====
section
/-! DEFINITION. The keypad and timer instructions (45_keys_timers.md R180 to R186). The pc holds A + 2 at the start. -/

namespace Sys2Proof.Machine

/-- 8-bit key lookup, then a skip where the key's state is `want`; KeyIndex where there is no such key (R180, R181, R186). -/
def State.skipOnKey (s : State) (b : Byte) (want : Bool) (w : Word) : State :=
  match s.keyAt b with
  | none => s.raiseFault .keyIndex w
  | some down => s.skipIf (down == want)

/-- Ex9E, SKP Vx (R180). -/
def execSkp (x : Reg) (s : State) : Host.Outcome State Fault Refusal :=
  .next (s.skipOnKey (s.getV x) true (encode (.skp x)))

/-- ExA1, SKNP Vx (R181). -/
def execSknp (x : Reg) (s : State) : Host.Outcome State Fault Refusal :=
  .next (s.skipOnKey (s.getV x) false (encode (.sknp x)))

/-- Fx07, LD Vx, DT (R182). -/
def execLdVxDt (x : Reg) (s : State) : Host.Outcome State Fault Refusal :=
  .next (s.setV x s.dt)

/-- Fx0A, LD Vx, K (R183): back to A where no key is pressed, else a pressed key's index in Vx (level-sensitive, log 16). -/
def execLdVxK (x : Reg) (s : State) : Host.Outcome State Fault Refusal :=
  match chooseKey s.keyDraws s.pressedKeys with
  | none => .next (s.setPc (s.pc - 2#16))
  | some k => .next (s.countKeyDraw.setV x (keyByte k))

/-- Fx15, LD DT, Vx (R184). -/
def execLdDtVx (x : Reg) (s : State) : Host.Outcome State Fault Refusal :=
  .next (s.setDt (s.getV x))

/-- Fx18, LD ST, Vx (R185). -/
def execLdStVx (x : Reg) (s : State) : Host.Outcome State Fault Refusal :=
  .next (s.setSt (s.getV x))

end Sys2Proof.Machine
end

