-- ==== Sys2Proof/Machine/Step.lean ====
section
/-! DEFINITION. One call of step(): the faulted check, fetch, pc advance, decode, execute, timer tick (40_step_cycle.md
R90). -/

namespace Sys2Proof.Machine

/-- `step()` (R90): exactly one fetch-decode-execute-timer cycle, or the Halted step of a faulted core (R91). -/
def step (s : State) : Host.Outcome State Fault Refusal :=
  match s.fault with
  | some _ => .next (haltedStep s)
  | none =>
    match decode (fetchWord s) with
    | .error _ => .next (decodeFaultStep (beginStep s) s.pc (fetchWord s))
    | .ok i =>
      match exec i (beginStep s) with
      | .next t => .next (endStep t)
      | .fault r => .fault r
      | .refused r => .refused r

/-- `s` with the instruction of a table row's bits stored at the pc, so that the next step fetches and runs it (log 28). -/
def State.withFetchWord (s : State) (nbits w : Nat) : State := placeWord s (tableWord nbits w)

end Sys2Proof.Machine
end

