-- ==== Sys2Proof/Machine/HostInterface.lean ====
section
/-! DEFINITION. The host interface less step() (60_exceptions.md R211 to R216, 70_reset_and_hazards.md R230, R231): each
entry point takes the state between two steps to a reply and a state. -/

namespace Sys2Proof.Machine

/-- The entry points the host may call between steps, other than step() (60_exceptions.md R211). -/
inductive HostCall where
  /-- reset(). -/
  | reset
  /-- loadProgram(bytes). -/
  | loadProgram (bytes : List Byte)
  /-- setKey(k, pressed); k may be out of range. -/
  | setKey (k : Nat) (pressed : Bool)
  /-- isKeyDown(k); k may be out of range. -/
  | isKeyDown (k : Nat)
  /-- consumeDirtyFrame(). -/
  | consumeDirtyFrame
  /-- The host reads dirty "to learn whether a redraw is owed" (R214). -/
  | readDirty
  /-- tick(), only when TICK_IN_STEP is false. -/
  | tick
  /-- Read the fault status. -/
  | readFault
deriving DecidableEq, Repr

/-- What an entry point returns. -/
inductive HostReply where
  /-- Nothing to return. -/
  | done
  /-- loadProgram's LoadError, code 5 (60_exceptions.md R201, 70_reset_and_hazards.md R231). -/
  | loadError
  /-- A boolean: a key's state or the dirty flag. -/
  | flag (b : Bool)
  /-- A copy of the framebuffer. -/
  | frame (fb : Framebuffer)
  /-- The events of a host tick. -/
  | ticked (events : List Event)
  /-- The fault status. -/
  | faultStatus (f : Option FaultRecord)
  /-- The call is refused and changed nothing (R212, R213). -/
  | refused
deriving DecidableEq, Repr

/-- The fault codes of 60_exceptions.md R201 (log 30). -/
def HardFault.code : HardFault → Nat
  | .stackOverflow => 2
  | .stackUnderflow => 3
  | .keyIndex => 4

/-- The code of an event on the fault channel, none for a tone (60_exceptions.md R201, R215). -/
def Event.code : Event → Option Nat
  | .decodeFault _ _ => some 1
  | .hardFault k _ _ => some k.code
  | .tone => none

/-- The code of a reply that reports an error of the load (60_exceptions.md R201). -/
def HostReply.code : HostReply → Option Nat
  | .loadError => some 5
  | .done | .flag _ | .frame _ | .ticked _ | .faultStatus _ | .refused => none

/-- `mem[a + i] <- bytes[i]` for each byte in turn (70_reset_and_hazards.md R231). -/
def State.copyBytes (s : State) (a : Nat) : List Byte → State
  | [] => s
  | b :: rest => (s.memWrite a b).copyBytes (a + 1) rest

/-- loadProgram (70_reset_and_hazards.md R231): an oversized program is rejected whole (log 21). -/
def hostLoadProgram (bytes : List Byte) (s : State) : HostReply × State :=
  if bytes.length > Config.maxProg then (.loadError, s) else (.done, s.copyBytes Config.progBase bytes)

/-- setKey (60_exceptions.md R212): an index above 15 is refused (log 23). -/
def hostSetKey (k : Nat) (pressed : Bool) (s : State) : HostReply × State :=
  if h : k < 16 then (.done, { s with key := s.key.set k pressed h }) else (.refused, s)

/-- isKeyDown (60_exceptions.md R213). -/
def hostIsKeyDown (k : Nat) (s : State) : HostReply × State :=
  if h : k < 16 then (.flag (s.keyDown ⟨k, h⟩), s) else (.refused, s)

/-- consumeDirtyFrame (60_exceptions.md R214): the framebuffer as it stands, and dirty cleared. -/
def hostConsumeDirtyFrame (s : State) : HostReply × State := (.frame s.fb, { s with dirty := false })

/-- The events of the tick start empty: the list is this call's alone (60_exceptions.md R215). A faulted core never ticks
(92_eei_decisions.md D11; log 17). -/
def State.freshTick (s : State) : State :=
  if s.fault.isSome then { s with events := [] } else { s with events := [] }.tick

/-- tick() (60_exceptions.md R211): no such call when TICK_IN_STEP is true. -/
def hostTick (s : State) : HostReply × State :=
  if s.params.tickInStep then (.refused, s) else (.ticked s.freshTick.events, s.freshTick)

/-- The entry points together (60_exceptions.md R211). -/
def hostCall (c : HostCall) (s : State) : HostReply × State :=
  match c with
  | .reset => (.done, s.hostReset)
  | .loadProgram bytes => hostLoadProgram bytes s
  | .setKey k pressed => hostSetKey k pressed s
  | .isKeyDown k => hostIsKeyDown k s
  | .consumeDirtyFrame => hostConsumeDirtyFrame s
  | .readDirty => (.flag s.dirty, s)
  | .tick => hostTick s
  | .readFault => (.faultStatus s.fault, s)

end Sys2Proof.Machine
end

