-- ==== Sys2Proof/Safety.lean ====
section
/-! DEFINITION. The terms claims are stated in: the components of the state, what two states agree on, which components
each instruction may change and depends on (10_state.md R35), the encoding pattern of an instruction, the pixels a sprite
covers, the invariant, and the reachable states. -/

namespace Sys2Proof.Machine

/-! ## Components and frames -/

/-- One independently readable piece of the state. -/
inductive Component where
  /-- A general register (10_state.md R21). -/
  | reg (x : Reg)
  /-- I (R23). -/
  | index
  /-- The pc (R24). -/
  | pc
  /-- The call stack (R25). -/
  | stack
  /-- DT (R26). -/
  | delay
  /-- ST (R26). -/
  | sound
  /-- A pixel (R27). -/
  | pixel (py : Row) (px : Col)
  /-- The dirty flag (R28). -/
  | dirty
  /-- A key's state (R29). -/
  | key (k : Key)
  /-- A byte of memory (20_memory.md R50). -/
  | byte (a : Fin 4096)
  /-- The fault status (R30). -/
  | fault
  /-- The model's own fields (logs 1, 5, 6, 7). -/
  | params
  | rngDraws
  | keyDraws
  | events
  | outcome
deriving DecidableEq, Repr

/-- `s` and `t` read the same at component `c`. -/
def Agree (s t : State) (c : Component) : Prop :=
  match c with
  | .reg x => s.getV x = t.getV x
  | .index => s.iReg = t.iReg
  | .pc => s.pc = t.pc
  | .stack => s.stack = t.stack
  | .delay => s.dt = t.dt
  | .sound => s.st = t.st
  | .pixel py px => s.pixel py px = t.pixel py px
  | .dirty => s.dirty = t.dirty
  | .key k => s.keyDown k = t.keyDown k
  | .byte a => s.memRead a.val = t.memRead a.val
  | .fault => s.fault = t.fault
  | .params => s.params = t.params
  | .rngDraws => s.rngDraws = t.rngDraws
  | .keyDraws => s.keyDraws = t.keyDraws
  | .events => s.events = t.events
  | .outcome => s.outcome = t.outcome

/-- From `s` to `t` nothing changes but components in `may`. -/
def OnlyChanges (s t : State) (may : Component → Prop) : Prop := ∀ c, ¬ may c → Agree s t c

/-- The byte of memory at a natural address, wrapped (20_memory.md R51). -/
def byteAt (a : Nat) : Component := .byte (Fin.ofNat 4096 a)

/-- One of the pixels. -/
def anyPixel (c : Component) : Prop := ∃ py px, c = .pixel py px

/-- One of the `n` bytes at I, I+1, .. I+n-1 (20_memory.md R51). -/
def blockByte (s : State) (n : Nat) (c : Component) : Prop := ∃ k, k < n ∧ c = byteAt (s.blockAddr k)

/-- One of the registers V0..Vx. -/
def regUpTo (x : Reg) (c : Component) : Prop := ∃ k : Reg, k ≤ x ∧ c = .reg k

/-- The W column of the table of 10_state.md R35, with `fault` and `events` for the instructions that raise a hard fault
(60_exceptions.md R201), and the draw counters (logs 5, 6). -/
def mayWrite (s : State) (i : Instr) (c : Component) : Prop :=
  match i with
  | .cls => anyPixel c ∨ c = .dirty
  | .ret => c ∈ [.pc, .stack, .fault, .events]
  | .sys _ => False
  | .jp _ => c = .pc
  | .call _ => c ∈ [.stack, .pc, .fault, .events]
  | .seImm _ _ | .sneImm _ _ | .seReg _ _ | .sneReg _ _ => c = .pc
  | .ldImm x _ | .addImm x _ | .ldReg x _ | .or x _ | .and x _ | .xor x _ => c = .reg x
  | .addReg x _ | .sub x _ | .subn x _ | .shr x _ | .shl x _ => c ∈ [.reg x, .reg vf]
  | .ldI _ => c = .index
  | .jpV0 _ => c = .pc
  | .rnd x _ => c ∈ [.reg x, .rngDraws]
  | .drw _ _ _ => anyPixel c ∨ c ∈ [.reg vf, .dirty]
  | .skp _ | .sknp _ => c ∈ [.pc, .fault, .events]
  | .ldVxDt x => c = .reg x
  | .ldVxK x => c ∈ [.reg x, .pc, .keyDraws]
  | .ldDtVx _ => c = .delay
  | .ldStVx _ => c = .sound
  | .addI _ | .ldF _ => c = .index
  | .ldB _ => blockByte s 3 c
  | .storeBlock x => blockByte s (x.val + 1) c ∨ c = .index
  | .loadBlock x => regUpTo x c ∨ c = .index

/-- The R column of the table of 10_state.md R35, with the draw counters (logs 5, 6). -/
def mayRead (s : State) (i : Instr) (c : Component) : Prop :=
  match i with
  | .cls | .sys _ | .jp _ | .ldImm _ _ | .ldI _ => False
  | .ret | .call _ => c = .stack
  | .seImm x _ | .sneImm x _ | .addImm x _ => c = .reg x
  | .seReg x y | .sneReg x y => c ∈ [.reg x, .reg y]
  | .ldReg _ y => c = .reg y
  | .or x y | .and x y | .xor x y => c ∈ [.reg x, .reg y]
  | .addReg x y | .sub x y | .subn x y => c ∈ [.reg x, .reg y]
  | .shr x _ | .shl x _ => c = .reg x
  | .jpV0 _ => c = .reg 0
  | .rnd _ _ => c = .rngDraws
  | .drw x y n => c ∈ [.reg x, .reg y, .index] ∨ blockByte s n.val c ∨ anyPixel c
  | .skp x | .sknp x => c = .reg x ∨ ∃ k, c = .key k
  | .ldVxDt _ => c = .delay
  | .ldVxK _ => c = .keyDraws ∨ ∃ k, c = .key k
  | .ldDtVx x | .ldStVx x | .ldF x => c = .reg x
  | .addI x => c ∈ [.index, .reg x]
  | .ldB x => c ∈ [.reg x, .index]
  | .storeBlock x => regUpTo x c ∨ c = .index
  | .loadBlock x => c = .index ∨ blockByte s (x.val + 1) c

/-- What every step reads apart from the instruction's own reads: the pc (10_state.md R35), and what a fault record or an
event is appended to, and the parameters. -/
def alwaysRead (c : Component) : Prop := c ∈ [.pc, .fault, .events, .params]

/-! ## Encodings and sprites -/

/-- Every word that matches `pattern` under `mask` decodes to the instruction `f` makes of its fields (30_encoding.md
R73: "An instruction word w is the pattern's instruction when `w & mask = match`"). -/
def Encodes (pattern mask : Word) (f : Word → Instr) : Prop := ∀ w : Word, w &&& mask = pattern → decode w = .ok (f w)

/-- A set bit of the `n`-row sprite at I lands on pixel (px, py) when the sprite is drawn from (cx, cy) (41_display.md
R111, R112). -/
def SpriteCovers (s : State) (cx cy : Byte) (n : Nat) (py : Row) (px : Col) : Prop :=
  ∃ r c, r < n ∧ c < 8 ∧ spriteBit (s.memRead (s.blockAddr r)) c = true ∧ py = spriteRow cy r ∧ px = spriteCol cx c

/-! ## Safe runs -/

/-- The word of a fault record is one of the instruction that raises its kind (60_exceptions.md R201). -/
def FaultRecord.wordFits (r : FaultRecord) : Prop :=
  match r.kind with
  | .stackOverflow => r.word &&& 0xF000#16 = 0x2000#16
  | .stackUnderflow => r.word = 0x00EE#16
  | .keyIndex => r.word &&& 0xF0FF#16 = 0xE09E#16 ∨ r.word &&& 0xF0FF#16 = 0xE0A1#16

/-- What holds of every state of a run. -/
structure Inv (s : State) : Prop where
  /-- Memory is in its canonical form: addresses below 4096, each listed once (20_memory.md R50, R51). -/
  memCanonical : Memory.wf s.params s.mem = true
  /-- Bits 15 to 12 of I read 0 (10_state.md R23). -/
  indexBelow : s.iReg.toNat < 4096
  /-- The stack holds 0 to STACK_DEPTH entries (10_state.md R25). -/
  stackBound : s.stack.length ≤ s.params.stackDepth
  /-- STACK_DEPTH is at least 1 (00_scope.md R7). -/
  depthPositive : 1 ≤ s.params.stackDepth
  /-- A step emits at most two events (40_step_cycle.md R100). -/
  eventsBound : s.events.length ≤ 2
  /-- The last step was Faulted or Halted exactly while the core is faulted (40_step_cycle.md R91, R98, R100). -/
  outcomeFits : s.fault ≠ none ↔ s.outcome = some .faulted ∨ s.outcome = some .halted
  /-- While the core is faulted the pc keeps A + 2 (60_exceptions.md R208). -/
  faultAddr : ∀ r, s.fault = some r → s.pc = r.addr + 2#16
  /-- The recorded word is one of the instruction that raised the fault (60_exceptions.md R201). -/
  faultWord : ∀ r, s.fault = some r → r.wordFits

/-- The state after reset with parameters `p` (00_scope.md R7, 10_state.md R33). -/
def resetWith (p : Params) : State := { State.reset with params := p }

/-- The states of runs from reset, for every value of the parameters the spec admits: steps, and host calls between steps
in any order and at any rate (60_exceptions.md R216). -/
inductive Reachable : State → Prop where
  | reset (p : Params) (h : 1 ≤ p.stackDepth) : Reachable (resetWith p)
  | step (s t : State) (hs : Reachable s) (h : step s = .next t) : Reachable t
  | call (s : State) (c : HostCall) (hs : Reachable s) : Reachable (hostCall c s).2

end Sys2Proof.Machine
end

