-- ==== Sys2Proof/Certificates/Slice0/Obligations.lean ====
section
/-! DEFINITION. The statements for the provers, from the numbered rules of spec/. Most say that `exec` answers a next
state, what that state holds, and by `OnlyChanges` that nothing else changed (components: Sys2Proof/Safety.lean). An
encoding clause `Encodes pattern mask f` says that every word of the rule's pattern decodes to the instruction. A docstring
names the decision D<n> or the log row where a clause is the spec's own choice or the model's. -/

open Sys2Proof Sys2Proof.Machine

/-- The default FONT of 10_state.md R33, byte by byte (glyph 0 is the source's, the rest PRESUMED, log 3). -/
def Sys2Proof.Machine.conventionalFont : List Byte :=
  [0xF0, 0x90, 0x90, 0x90, 0xF0] ++ [0x20, 0x60, 0x20, 0x20, 0x70] ++ [0xF0, 0x10, 0xF0, 0x80, 0xF0] ++
  [0xF0, 0x10, 0xF0, 0x10, 0xF0] ++ [0x90, 0x90, 0xF0, 0x10, 0x10] ++ [0xF0, 0x80, 0xF0, 0x10, 0xF0] ++
  [0xF0, 0x80, 0xF0, 0x90, 0xF0] ++ [0xF0, 0x10, 0x20, 0x40, 0x40] ++ [0xF0, 0x90, 0xF0, 0x90, 0xF0] ++
  [0xF0, 0x90, 0xF0, 0x10, 0xF0] ++ [0xF0, 0x90, 0xF0, 0x90, 0x90] ++ [0xE0, 0x90, 0xE0, 0x90, 0xE0] ++
  [0xF0, 0x80, 0x80, 0x80, 0xF0] ++ [0xE0, 0x90, 0x90, 0x90, 0xE0] ++ [0xF0, 0x80, 0xF0, 0x80, 0xF0] ++
  [0xF0, 0x80, 0xF0, 0x80, 0x80]

/-! ## Reset and the invariant -/

/-- R33, R230: the reset values. Rests on D20 (keys, dirty, fault) and on the default font (D14, log 3). -/
def Obligations.ResetLeavesTheSpecifiedState : Prop :=
  (∀ x, State.reset.getV x = 0#8) ∧ State.reset.iReg = 0x000#16 ∧ State.reset.pc = 0x200#16 ∧ State.reset.stack = [] ∧
  State.reset.dt = 0#8 ∧ State.reset.st = 0#8 ∧ (∀ py px, State.reset.pixel py px = false) ∧ State.reset.dirty = false ∧
  (∀ k, State.reset.keyDown k = false) ∧ State.reset.fault = none ∧
  (∀ a, a < 80 → State.reset.memRead a = conventionalFont.getD a 0#8) ∧
  (∀ a, 80 ≤ a → a < 4096 → State.reset.memRead a = 0#8)

/-- R230, R209: the host's reset from any state, faulted or not. Rests on D20; that the parameters and the draw counters
stay and that `outcome` is none is the model's choice (logs 7, 22). -/
def Obligations.HostResetRestoresEveryComponent : Prop :=
  ∀ s : State, ∃ t, hostCall .reset s = (.done, t) ∧
    (∀ x, t.getV x = 0#8) ∧ t.iReg = 0x000#16 ∧ t.pc = 0x200#16 ∧ t.stack = [] ∧ t.dt = 0#8 ∧ t.st = 0#8 ∧
    (∀ py px, t.pixel py px = false) ∧ t.dirty = false ∧ (∀ k, t.keyDown k = false) ∧ t.fault = none ∧
    t.events = [] ∧ t.outcome = none ∧
    (t.memRead 0 = 0xF0#8 ∧ t.memRead 1 = 0x90#8 ∧ t.memRead 2 = 0x90#8 ∧ t.memRead 3 = 0x90#8 ∧ t.memRead 4 = 0xF0#8) ∧
    (∀ k r : Nat, (hk : k < 15) → (hr : r < 5) → t.memRead (5 * (k + 1) + r) = (s.params.glyphs[k])[r]) ∧
    (∀ a, 80 ≤ a → a < 4096 → t.memRead a = 0#8) ∧
    t.params = s.params ∧ t.rngDraws = s.rngDraws ∧ t.keyDraws = s.keyDraws

/-- The invariant `Inv` holds after reset, for every value of the parameters with STACK_DEPTH at least 1 (R7). -/
def Obligations.ResetMeetsTheInvariant : Prop :=
  Inv State.reset ∧ ∀ p : Params, 1 ≤ p.stackDepth → Inv (resetWith p)

/-- Every step keeps the invariant, from every state that has it: I below 4096 (R23), the stack bounded (R25), memory
canonical (log 27), and a faulted core's record precise (R208, R201). -/
def Obligations.EveryStepKeepsTheInvariant : Prop :=
  ∀ s t : State, Inv s → step s = .next t → Inv t

/-- Every host call keeps the invariant (60_exceptions.md R211 to R216). -/
def Obligations.EveryHostCallKeepsTheInvariant : Prop :=
  ∀ (s : State) (c : HostCall), Inv s → Inv (hostCall c s).2

/-- A corollary over runs of the two statements above and of the reset one: every state of every run from reset, with steps
and host calls in any order and every value of the parameters, meets the invariant; so the pc of a halted core is its fault address plus 2 and the next step of it is Halted. -/
def Obligations.ReachableStatesMeetTheInvariant : Prop :=
  ∀ s : State, Reachable s → Inv s ∧
    (∀ r, s.fault = some r → s.pc = r.addr + 2#16 ∧ step s = .next { s with events := [], outcome := some .halted })

/-- The components of Sys2Proof/Safety.lean are the whole state: two states with canonical memories that agree on each
are equal, so a frame that lists what changes leaves nothing out (log 27). -/
def Obligations.ComponentsDetermineTheState : Prop :=
  ∀ s t : State, Memory.wf s.params s.mem = true → Memory.wf t.params t.mem = true → (∀ c, Agree s t c) → s = t

/-! ## Encoding -/

/-- Decoding the word of a well-formed instruction gives it back (30_encoding.md R71 to R74). -/
def Obligations.DecodeOfEncodeIsTheInstruction : Prop :=
  ∀ i : Instr, i.wellFormed = true → decode (encode i) = .ok i

/-- A word that decodes is the word of what it decodes to, which is well formed: no bit of a word is dropped, the unused
y of SHR and SHL included (30_encoding.md R74, R76). -/
def Obligations.EncodeOfDecodeIsTheWord : Prop :=
  ∀ (w : Word) (i : Instr), decode w = .ok i → encode i = w ∧ i.wellFormed = true

/-- R75 (derived in the spec from R74; 5xyN and 9xyN by D4): the unrecognized words. -/
def Obligations.UnrecognizedWordsAreExactlyTheListed : Prop :=
  ∀ w : Word, decode w = .error (.unrecognized w) ↔
    (w &&& 0xF000#16 = 0x5000#16 ∧ w &&& 0x000F#16 ≠ 0#16) ∨
    (w &&& 0xF000#16 = 0x8000#16 ∧ (w &&& 0x000F#16) ∈ [0x8#16, 0x9#16, 0xA#16, 0xB#16, 0xC#16, 0xD#16, 0xF#16]) ∨
    (w &&& 0xF000#16 = 0x9000#16 ∧ w &&& 0x000F#16 ≠ 0#16) ∨
    (w &&& 0xF000#16 = 0xE000#16 ∧ (w &&& 0x00FF#16) ∉ [0x9E#16, 0xA1#16]) ∨
    (w &&& 0xF000#16 = 0xF000#16 ∧
      (w &&& 0x00FF#16) ∉ [0x07#16, 0x0A#16, 0x15#16, 0x18#16, 0x1E#16, 0x29#16, 0x33#16, 0x55#16, 0x65#16])

/-- Words of families 0, 1, 5, 8, D, E and F, as the vectors of 95_test_vectors.md L2.2 and the patterns of R73 give them.
That 01E0 is SYS is the spec's choice D3 (log 13), that 5121 is unrecognized its choice D4 (log 14). -/
def Obligations.SampleWordsDecodeAsSpecified : Prop :=
  decode 0x00E0#16 = .ok .cls ∧ decode 0x00EE#16 = .ok .ret ∧ decode 0x01E0#16 = .ok (.sys 0x1E0#12) ∧
  decode 0x1ABC#16 = .ok (.jp 0xABC#12) ∧ decode 0x812E#16 = .ok (.shl 1 2) ∧ decode 0x8F25#16 = .ok (.sub 0xF 2) ∧
  decode 0xD015#16 = .ok (.drw 0 1 5) ∧ decode 0xE1A1#16 = .ok (.sknp 1) ∧ decode 0xF365#16 = .ok (.loadBlock 3) ∧
  decode 0x5121#16 = .error (.unrecognized 0x5121#16) ∧ decode 0x8128#16 = .error (.unrecognized 0x8128#16) ∧
  decode 0xF1FF#16 = .error (.unrecognized 0xF1FF#16)

/-! ## The step cycle -/

/-- R92, R53: the fetched word, and the fetch at the top of memory (the wrap is D1, log 11). -/
def Obligations.FetchIsBigEndianAndWraps : Prop :=
  ∀ s : State,
    (fetchWord s).toNat = (s.memRead s.pc.toNat).toNat * 256 + (s.memRead (s.pc.toNat + 1)).toNat ∧
    (s.pc.toNat % 4096 = 0xFFF →
      (fetchWord s).toNat = (s.memRead 0xFFF).toNat * 256 + (s.memRead 0x000).toNat)

/-- The word placed by withFetchWord is the one the next step fetches, whatever the pc, and the core is not halted; two
bytes of memory and the fault status are all it changes (the model's convention, log 28). -/
def Obligations.PlacedWordIsFetchedNext : Prop :=
  ∀ (s : State) (w : Word), fetchWord (s.withFetchWord 16 w.toNat) = w ∧ (s.withFetchWord 16 w.toNat).fault = none ∧
    OnlyChanges s (s.withFetchWord 16 w.toNat)
      (fun c => c = byteAt s.pc.toNat ∨ c = byteAt (s.pc.toNat + 1) ∨ c = .fault)

/-- R90, R93, R95, R98, R99: when the fetched word decodes to `i`, the step is `exec i` with the pc advanced by 2 and the
event list empty, then the abort of a hard fault or the timer phase. D7, D10 and D11 are the spec's choices in it. -/
def Obligations.StepRunsTheDecodedInstruction : Prop :=
  ∀ (s t : State) (i : Instr), s.fault = none → decode (fetchWord s) = .ok i →
    exec i { s with pc := s.pc + 2#16, events := [] } = .next t →
    step s = .next
      (if t.fault.isSome then { t with outcome := some .faulted }
       else { (if t.params.tickInStep then t.tick else t) with outcome := some .ran })

/-- No step of the core ends in a fault or refusal of the host's kind (log 8). -/
def Obligations.StepAlwaysAnswersANextState : Prop := ∀ s : State, ∃ t, step s = .next t

/-- R97, R202 (D11): the step of an unrecognized word. -/
def Obligations.UnrecognizedWordOnlyAdvances : Prop :=
  ∀ (s : State) (e : DecodeError), s.fault = none → decode (fetchWord s) = .error e →
    ∃ t, step s = .next t ∧ t.pc = s.pc + 2#16 ∧ t.outcome = some .ran ∧
      (s.params.tickInStep = true → t.dt.toNat = s.dt.toNat - 1 ∧ t.st.toNat = s.st.toNat - 1 ∧
        t.events = .decodeFault s.pc (fetchWord s) :: (if s.st = 1#8 then [.tone] else [])) ∧
      (s.params.tickInStep = false → t.dt = s.dt ∧ t.st = s.st ∧ t.events = [.decodeFault s.pc (fetchWord s)]) ∧
      OnlyChanges s t (fun c => c ∈ [.pc, .delay, .sound, .events, .outcome])

/-- R91 (D21): however often step() is called on a faulted core, it returns Halted and changes nothing but the output;
and of the host's calls only reset changes the fault status (R209). -/
def Obligations.FaultedCoreStaysHalted : Prop :=
  (∀ (s : State) (n : Nat), s.fault ≠ none →
    ∃ t, core.run (n + 1) s = .next t ∧ t.outcome = some .halted ∧ t.events = [] ∧
      OnlyChanges s t (fun c => c ∈ [.events, .outcome])) ∧
  ∀ (s : State) (c : HostCall), (hostCall c s).2.fault ≠ s.fault → c = .reset

/-- R98, R208 (D7, D23): a step that leaves a hard fault recorded it with its own address and word, advanced the pc, did
not tick, and changed nothing else; whatever instruction raised it. -/
def Obligations.HardFaultsArePrecise : Prop :=
  ∀ (s t : State) (r : FaultRecord), s.fault = none → step s = .next t → t.fault = some r →
    r.addr = s.pc ∧ r.word = fetchWord s ∧ t.pc = s.pc + 2#16 ∧ t.outcome = some .faulted ∧
    t.events = [.hardFault r.kind s.pc (fetchWord s)] ∧
    OnlyChanges s t (fun c => c ∈ [.pc, .fault, .events, .outcome])

/-- R201, R203 to R205 (D6 to D8): a step raises each hard fault exactly when the table says. -/
def Obligations.HardFaultsHaveExactlyTheListedCauses : Prop :=
  ∀ s t : State, s.fault = none → step s = .next t →
    ((∃ r, t.fault = some r ∧ r.kind = .stackOverflow) ↔
      (∃ nnn, decode (fetchWord s) = .ok (.call nnn)) ∧ s.stack.length = s.params.stackDepth) ∧
    ((∃ r, t.fault = some r ∧ r.kind = .stackUnderflow) ↔ decode (fetchWord s) = .ok .ret ∧ s.stack = []) ∧
    ((∃ r, t.fault = some r ∧ r.kind = .keyIndex) ↔
      ∃ x, (decode (fetchWord s) = .ok (.skp x) ∨ decode (fetchWord s) = .ok (.sknp x)) ∧ 15 < (s.getV x).toNat)

/-- R187 (D12): what a tick does. -/
def Obligations.TickCountsBothTimersDown : Prop :=
  ∀ s : State, s.tick.dt.toNat = s.dt.toNat - 1 ∧ s.tick.st.toNat = s.st.toNat - 1 ∧
    s.tick.events = s.events ++ (if s.st = 1#8 then [.tone] else []) ∧
    OnlyChanges s s.tick (fun c => c ∈ [.delay, .sound, .events])

/-- R100, R207 (D29): the outcome and the events of any step. -/
def Obligations.StepEventsAndOutcomeFit : Prop :=
  ∀ s t : State, step s = .next t →
    (s.fault ≠ none ∧ t.outcome = some .halted ∧ t.events = []) ∨
    (s.fault = none ∧ t.outcome = some .faulted ∧
      ∃ r, t.fault = some r ∧ t.events = [.hardFault r.kind r.addr r.word]) ∨
    (s.fault = none ∧ t.fault = none ∧ t.outcome = some .ran ∧ (.tone ∈ t.events → t.st = 0#8) ∧
      ((∃ i, decode (fetchWord s) = .ok i ∧ (t.events = [] ∨ t.events = [.tone])) ∨
       (decode (fetchWord s) = .error (.unrecognized (fetchWord s)) ∧
        (t.events = [.decodeFault s.pc (fetchWord s)] ∨ t.events = [.decodeFault s.pc (fetchWord s), .tone]))))

/-- R62 (derived in the spec; D27, log 32; the wrap is D1, log 11; the store over the program is D18, log 20): when Fx55 stores two registers where the next word stands, the next step fetches the
word of those two registers. -/
def Obligations.StoreIsSeenByTheNextFetch : Prop :=
  ∀ (s : State) (x : Reg) (k : Nat), s.fault = none → decode (fetchWord s) = .ok (.storeBlock x) → k + 1 ≤ x.val →
    (s.iReg.toNat + k) % 4096 = (s.pc + 2#16).toNat % 4096 →
    ∃ t, step s = .next t ∧ t.pc = s.pc + 2#16 ∧
      fetchWord t = wordOfBytes (s.getV (Fin.ofNat 16 k)) (s.getV (Fin.ofNat 16 (k + 1)))

/-! ## Register and ALU instructions -/

/-- R141. -/
def Obligations.LoadImmediateSetsVx : Prop :=
  Encodes 0x6000#16 0xF000#16 (fun w => .ldImm (xField w) (nnField w)) ∧
  ∀ (x : Reg) (nn : Byte) (s : State), ∃ t, exec (.ldImm x nn) s = .next t ∧ t.getV x = nn ∧
    OnlyChanges s t (fun c => c = .reg x)

/-- R142. -/
def Obligations.AddImmediateWrapsAndSetsNoFlag : Prop :=
  Encodes 0x7000#16 0xF000#16 (fun w => .addImm (xField w) (nnField w)) ∧
  ∀ (x : Reg) (nn : Byte) (s : State), ∃ t, exec (.addImm x nn) s = .next t ∧
    (t.getV x).toNat = ((s.getV x).toNat + nn.toNat) % 256 ∧ OnlyChanges s t (fun c => c = .reg x)

/-- R143 to R146. -/
def Obligations.CopyAndLogicSetVxAlone : Prop :=
  Encodes 0x8000#16 0xF00F#16 (fun w => .ldReg (xField w) (yField w)) ∧
  Encodes 0x8001#16 0xF00F#16 (fun w => .or (xField w) (yField w)) ∧
  Encodes 0x8002#16 0xF00F#16 (fun w => .and (xField w) (yField w)) ∧
  Encodes 0x8003#16 0xF00F#16 (fun w => .xor (xField w) (yField w)) ∧
  ∀ (x y : Reg) (s : State),
    (∃ t, exec (.ldReg x y) s = .next t ∧ t.getV x = s.getV y ∧ OnlyChanges s t (fun c => c = .reg x)) ∧
    (∃ t, exec (.or x y) s = .next t ∧ t.getV x = s.getV x ||| s.getV y ∧ OnlyChanges s t (fun c => c = .reg x)) ∧
    (∃ t, exec (.and x y) s = .next t ∧ t.getV x = s.getV x &&& s.getV y ∧ OnlyChanges s t (fun c => c = .reg x)) ∧
    (∃ t, exec (.xor x y) s = .next t ∧ t.getV x = s.getV x ^^^ s.getV y ∧ OnlyChanges s t (fun c => c = .reg x))

/-- R147 (statement order: D5, log 10): the exact sum decides the flag, which is written last, so VF ends as the carry where
x is F. -/
def Obligations.AddRegistersSetsCarry : Prop :=
  Encodes 0x8004#16 0xF00F#16 (fun w => .addReg (xField w) (yField w)) ∧
  ∀ (x y : Reg) (s : State), ∃ t, exec (.addReg x y) s = .next t ∧
    t.getV vf = (if (s.getV x).toNat + (s.getV y).toNat > 255 then 1#8 else 0#8) ∧
    (x ≠ vf → (t.getV x).toNat = ((s.getV x).toNat + (s.getV y).toNat) % 256) ∧
    OnlyChanges s t (fun c => c ∈ [.reg x, .reg vf])

/-- R148 (statement order: D5): the flag first, then the difference of the registers as they then stand. -/
def Obligations.SubtractWritesFlagFirst : Prop :=
  Encodes 0x8005#16 0xF00F#16 (fun w => .sub (xField w) (yField w)) ∧
  ∀ (x y : Reg) (s : State) (a b flag : Nat), a = (s.getV x).toNat → b = (s.getV y).toNat →
    flag = (if a ≥ b then 1 else 0) →
    ∃ t, exec (.sub x y) s = .next t ∧
      (x ≠ vf → (t.getV vf).toNat = flag) ∧
      (x ≠ vf → y ≠ vf → (t.getV x).toNat = (a + 256 - b) % 256) ∧
      (x ≠ vf → y = vf → (t.getV x).toNat = (a + 256 - flag) % 256) ∧
      (x = vf → y ≠ vf → (t.getV vf).toNat = (flag + 256 - b) % 256) ∧
      (x = vf → y = vf → t.getV vf = 0#8) ∧
      OnlyChanges s t (fun c => c ∈ [.reg x, .reg vf])

/-- R150 (statement order: D5). -/
def Obligations.SubtractReversedWritesFlagFirst : Prop :=
  Encodes 0x8007#16 0xF00F#16 (fun w => .subn (xField w) (yField w)) ∧
  ∀ (x y : Reg) (s : State) (a b flag : Nat), a = (s.getV x).toNat → b = (s.getV y).toNat →
    flag = (if b ≥ a then 1 else 0) →
    ∃ t, exec (.subn x y) s = .next t ∧
      (x ≠ vf → (t.getV vf).toNat = flag) ∧
      (x ≠ vf → y ≠ vf → (t.getV x).toNat = (b + 256 - a) % 256) ∧
      (x ≠ vf → y = vf → (t.getV x).toNat = (flag + 256 - a) % 256) ∧
      (x = vf → y ≠ vf → (t.getV vf).toNat = (b + 256 - flag) % 256) ∧
      (x = vf → y = vf → t.getV vf = 0#8) ∧
      OnlyChanges s t (fun c => c ∈ [.reg x, .reg vf])

/-- R149, R151 (statement order: D5): one bit, the flag first, y unused. -/
def Obligations.ShiftsMoveOneBitThroughVF : Prop :=
  Encodes 0x8006#16 0xF00F#16 (fun w => .shr (xField w) (yField w)) ∧
  Encodes 0x800E#16 0xF00F#16 (fun w => .shl (xField w) (yField w)) ∧
  ∀ (x y : Reg) (s : State) (a : Nat), a = (s.getV x).toNat →
    (∃ t, exec (.shr x y) s = .next t ∧
      (x ≠ vf → (t.getV vf).toNat = a % 2 ∧ (t.getV x).toNat = a / 2) ∧ (x = vf → t.getV vf = 0#8) ∧
      OnlyChanges s t (fun c => c ∈ [.reg x, .reg vf])) ∧
    (∃ t, exec (.shl x y) s = .next t ∧
      (x ≠ vf → (t.getV vf).toNat = a / 128 ∧ (t.getV x).toNat = a * 2 % 256) ∧
      (x = vf → (t.getV vf).toNat = a / 128 * 2) ∧
      OnlyChanges s t (fun c => c ∈ [.reg x, .reg vf]))

/-- R152 (D13): the drawn byte is the free value `Config.rng` at the draw counter (log 5), masked by nn. -/
def Obligations.RandomByteIsMasked : Prop :=
  Encodes 0xC000#16 0xF000#16 (fun w => .rnd (xField w) (nnField w)) ∧
  ∀ (x : Reg) (nn : Byte) (s : State), ∃ t, exec (.rnd x nn) s = .next t ∧
    t.getV x = Config.rng s.rngDraws &&& nn ∧ (nn = 0#8 → t.getV x = 0#8) ∧ t.rngDraws = s.rngDraws + 1 ∧
    OnlyChanges s t (fun c => c ∈ [.reg x, .rngDraws])

/-! ## Index register and memory -/

/-- R160 to R162; Fx29 points into the 80 bytes of the font exactly when Vx is a digit. -/
def Obligations.IndexInstructionsSetIAlone : Prop :=
  Encodes 0xA000#16 0xF000#16 (fun w => .ldI (nnnField w)) ∧
  Encodes 0xF01E#16 0xF0FF#16 (fun w => .addI (xField w)) ∧
  Encodes 0xF029#16 0xF0FF#16 (fun w => .ldF (xField w)) ∧
  (∀ (nnn : Addr) (s : State), ∃ t, exec (.ldI nnn) s = .next t ∧ t.iReg.toNat = nnn.toNat ∧
    OnlyChanges s t (fun c => c = .index)) ∧
  ∀ (x : Reg) (s : State),
    (∃ t, exec (.addI x) s = .next t ∧ t.iReg.toNat = (s.iReg.toNat + (s.getV x).toNat) % 4096 ∧
      OnlyChanges s t (fun c => c = .index)) ∧
    (∃ t, exec (.ldF x) s = .next t ∧ t.iReg.toNat = (s.getV x).toNat * 5 ∧
      ((s.getV x).toNat < 16 ↔ t.iReg.toNat < 80) ∧ OnlyChanges s t (fun c => c = .index))

/-- R163 (digit order: from general knowledge in the spec, D16, log 19; addresses past 0xFFF wrap: D1, log 11; any address
may be overwritten: D18, log 20). -/
def Obligations.DecimalDigitsAreStoredAtI : Prop :=
  Encodes 0xF033#16 0xF0FF#16 (fun w => .ldB (xField w)) ∧
  ∀ (x : Reg) (s : State), ∃ t, exec (.ldB x) s = .next t ∧
    (t.memRead (s.blockAddr 0)).toNat = (s.getV x).toNat / 100 ∧
    (t.memRead (s.blockAddr 1)).toNat = (s.getV x).toNat / 10 % 10 ∧
    (t.memRead (s.blockAddr 2)).toNat = (s.getV x).toNat % 10 ∧
    OnlyChanges s t (blockByte s 3)

/-- R164 (addresses past 0xFFF wrap: D1, log 11; the font and the program may be overwritten: D18, log 20). -/
def Obligations.StoreBlockWritesV0ToVxAndAdvancesI : Prop :=
  Encodes 0xF055#16 0xF0FF#16 (fun w => .storeBlock (xField w)) ∧
  ∀ (x : Reg) (s : State), ∃ t, exec (.storeBlock x) s = .next t ∧
    (∀ k : Reg, k ≤ x → t.memRead (s.blockAddr k.val) = s.getV k) ∧
    t.iReg.toNat = (s.iReg.toNat + x.val + 1) % 4096 ∧
    OnlyChanges s t (fun c => blockByte s (x.val + 1) c ∨ c = .index)

/-- R165 (addresses past 0xFFF wrap: D1, log 11). -/
def Obligations.LoadBlockReadsV0ToVxAndAdvancesI : Prop :=
  Encodes 0xF065#16 0xF0FF#16 (fun w => .loadBlock (xField w)) ∧
  ∀ (x : Reg) (s : State), ∃ t, exec (.loadBlock x) s = .next t ∧
    (∀ k : Reg, k ≤ x → t.getV k = s.memRead (s.blockAddr k.val)) ∧
    t.iReg.toNat = (s.iReg.toNat + x.val + 1) % 4096 ∧
    OnlyChanges s t (fun c => regUpTo x c ∨ c = .index)

/-! ## Display -/

/-- R110. -/
def Obligations.ClearScreenBlanksAndMarksDirty : Prop :=
  (∀ w : Word, w = 0x00E0#16 ↔ decode w = .ok .cls) ∧
  ∀ s : State, ∃ t, exec .cls s = .next t ∧ (∀ py px, t.pixel py px = false) ∧ t.dirty = true ∧
    OnlyChanges s t (fun c => anyPixel c ∨ c = .dirty)

/-- R111 (D5, D15; the wrap of I is D1, log 11; bit 7 leftmost is general knowledge in the spec, log 18): the nested loops toggle exactly the covered
pixels, and VF is 1 exactly when a covered pixel was lit; the coordinates are those before VF is written. -/
def Obligations.DrawTogglesExactlyTheCoveredPixels : Prop :=
  Encodes 0xD000#16 0xF000#16 (fun w => .drw (xField w) (yField w) (nField w)) ∧
  ∀ (x y : Reg) (n : Fin 16) (s : State), ∃ t, exec (.drw x y n) s = .next t ∧
    (∀ py px, SpriteCovers s (s.getV x) (s.getV y) n.val py px → t.pixel py px = !(s.pixel py px)) ∧
    (∀ py px, ¬ SpriteCovers s (s.getV x) (s.getV y) n.val py px → t.pixel py px = s.pixel py px) ∧
    ((∃ py px, SpriteCovers s (s.getV x) (s.getV y) n.val py px ∧ s.pixel py px = true) → t.getV vf = 1#8) ∧
    ((¬ ∃ py px, SpriteCovers s (s.getV x) (s.getV y) n.val py px ∧ s.pixel py px = true) → t.getV vf = 0#8) ∧
    t.dirty = true ∧ OnlyChanges s t (fun c => anyPixel c ∨ c ∈ [.reg vf, .dirty])

/-- R111 corner case (derived in the spec): a sprite drawn twice from the same Vx and Vy leaves the screen as it was. The second
draw's VF is 1 exactly when the first draw lit a covered pixel, that is when one was unlit before: the pseudocode's
answer, which the corner case's "whenever the sprite has a 1 bit" overstates (log 35). It is about the runs
whose first draw leaves Vx and Vy as they were: with x or y = F, those in which VF is unchanged. -/
def Obligations.DrawTwiceRestoresTheScreen : Prop :=
  ∀ (x y : Reg) (n : Fin 16) (s t u : State), exec (.drw x y n) s = .next t → exec (.drw x y n) t = .next u →
    t.getV x = s.getV x → t.getV y = s.getV y →
    (∀ py px, u.pixel py px = s.pixel py px) ∧
    ((∃ py px, SpriteCovers s (s.getV x) (s.getV y) n.val py px ∧ s.pixel py px = false) → u.getV vf = 1#8) ∧
    ((¬ ∃ py px, SpriteCovers s (s.getV x) (s.getV y) n.val py px ∧ s.pixel py px = false) → u.getV vf = 0#8)

/-! ## Control transfer -/

/-- R120 (D3): any word 0nnn but 00E0 and 00EE. -/
def Obligations.SysIsANoOperation : Prop :=
  (∀ w : Word, w &&& 0xF000#16 = 0x0000#16 → w ≠ 0x00E0#16 → w ≠ 0x00EE#16 → decode w = .ok (.sys (nnnField w))) ∧
  ∀ (nnn : Addr) (s : State), exec (.sys nnn) s = .next s

/-- R122, with its corner case of a jump to itself: "every step fetches the same word and only the timers change". -/
def Obligations.JumpSetsPcToTheTarget : Prop :=
  Encodes 0x1000#16 0xF000#16 (fun w => .jp (nnnField w)) ∧
  (∀ (nnn : Addr) (s : State), ∃ t, exec (.jp nnn) s = .next t ∧ t.pc.toNat = nnn.toNat ∧
    OnlyChanges s t (fun c => c = .pc)) ∧
  ∀ (nnn : Addr) (s : State), s.fault = none → decode (fetchWord s) = .ok (.jp nnn) → s.pc.toNat = nnn.toNat →
    ∃ t, step s = .next t ∧ fetchWord t = fetchWord s ∧ OnlyChanges s t (fun c => c ∈ [.delay, .sound, .events, .outcome])

/-- R128 (D2: the sum is not masked to 12 bits). -/
def Obligations.IndexedJumpAddsV0 : Prop :=
  Encodes 0xB000#16 0xF000#16 (fun w => .jpV0 (nnnField w)) ∧
  ∀ (nnn : Addr) (s : State), ∃ t, exec (.jpV0 nnn) s = .next t ∧ t.pc.toNat = nnn.toNat + (s.getV 0).toNat ∧
    OnlyChanges s t (fun c => c = .pc)

/-- R123, R203 (D6, D7): the call below capacity, and the StackOverflow at capacity. -/
def Obligations.CallPushesOrOverflows : Prop :=
  Encodes 0x2000#16 0xF000#16 (fun w => .call (nnnField w)) ∧
  ∀ (nnn : Addr) (s : State),
    (s.stack.length ≠ s.params.stackDepth → ∃ t, exec (.call nnn) s = .next t ∧ t.pc.toNat = nnn.toNat ∧
      t.stack = s.pc :: s.stack ∧ OnlyChanges s t (fun c => c ∈ [.pc, .stack])) ∧
    (s.stack.length = s.params.stackDepth → ∃ t, exec (.call nnn) s = .next t ∧
      t.fault = some { kind := .stackOverflow, addr := s.pc - 2#16, word := encode (.call nnn) } ∧
      t.events = s.events ++ [.hardFault .stackOverflow (s.pc - 2#16) (encode (.call nnn))] ∧
      OnlyChanges s t (fun c => c ∈ [.fault, .events]))

/-- R121, R204 (D7): the return, and the StackUnderflow of an empty stack. -/
def Obligations.ReturnPopsOrUnderflows : Prop :=
  (∀ w : Word, w = 0x00EE#16 ↔ decode w = .ok .ret) ∧
  ∀ s : State,
    (∀ a rest, s.stack = a :: rest → ∃ t, exec .ret s = .next t ∧ t.pc = a ∧ t.stack = rest ∧
      OnlyChanges s t (fun c => c ∈ [.pc, .stack])) ∧
    (s.stack = [] → ∃ t, exec .ret s = .next t ∧
      t.fault = some { kind := .stackUnderflow, addr := s.pc - 2#16, word := 0x00EE#16 } ∧
      t.events = s.events ++ [.hardFault .stackUnderflow (s.pc - 2#16) 0x00EE#16] ∧
      OnlyChanges s t (fun c => c ∈ [.fault, .events]))

/-- R124, R125, with the skip of R96. -/
def Obligations.SkipsOnAnImmediate : Prop :=
  Encodes 0x3000#16 0xF000#16 (fun w => .seImm (xField w) (nnField w)) ∧
  Encodes 0x4000#16 0xF000#16 (fun w => .sneImm (xField w) (nnField w)) ∧
  ∀ (x : Reg) (nn : Byte) (s : State),
    (∃ t, exec (.seImm x nn) s = .next t ∧ t.pc = (if s.getV x = nn then s.pc + 2#16 else s.pc) ∧
      OnlyChanges s t (fun c => c = .pc)) ∧
    (∃ t, exec (.sneImm x nn) s = .next t ∧ t.pc = (if s.getV x = nn then s.pc else s.pc + 2#16) ∧
      OnlyChanges s t (fun c => c = .pc))

/-- R126, R127, with the skip of R96 (that the low nibble must be 0 is D4, log 14). -/
def Obligations.SkipsOnTwoRegisters : Prop :=
  Encodes 0x5000#16 0xF00F#16 (fun w => .seReg (xField w) (yField w)) ∧
  Encodes 0x9000#16 0xF00F#16 (fun w => .sneReg (xField w) (yField w)) ∧
  ∀ (x y : Reg) (s : State),
    (∃ t, exec (.seReg x y) s = .next t ∧ t.pc = (if s.getV x = s.getV y then s.pc + 2#16 else s.pc) ∧
      OnlyChanges s t (fun c => c = .pc)) ∧
    (∃ t, exec (.sneReg x y) s = .next t ∧ t.pc = (if s.getV x = s.getV y then s.pc else s.pc + 2#16) ∧
      OnlyChanges s t (fun c => c = .pc))

/-- R121, R123, R25: a step that calls, then any run of the subroutine that leaves the stack as the call left it, then a
step that returns: the pc is the word after the call and the stack is the caller's. -/
def Obligations.ReturnUndoesCall : Prop :=
  ∀ (s t u : State) (nnn : Addr), s.fault = none → decode (fetchWord s) = .ok (.call nnn) →
    s.stack.length < s.params.stackDepth → step s = .next t →
    u.fault = none → u.stack = t.stack → decode (fetchWord u) = .ok .ret →
    ∃ v, step u = .next v ∧ v.pc = s.pc + 2#16 ∧ v.stack = s.stack ∧ v.fault = none

/-! ## Keypad and timers -/

/-- R180, R181, R186, R205 (D8): the key skips, and KeyIndex where Vx is above 15. -/
def Obligations.SkipsOnAKey : Prop :=
  Encodes 0xE09E#16 0xF0FF#16 (fun w => .skp (xField w)) ∧
  Encodes 0xE0A1#16 0xF0FF#16 (fun w => .sknp (xField w)) ∧
  ∀ (x : Reg) (s : State),
    (∀ k : Key, (s.getV x).toNat = k.val →
      (∃ t, exec (.skp x) s = .next t ∧ t.pc = (if s.keyDown k then s.pc + 2#16 else s.pc) ∧
        OnlyChanges s t (fun c => c = .pc)) ∧
      (∃ t, exec (.sknp x) s = .next t ∧ t.pc = (if s.keyDown k then s.pc else s.pc + 2#16) ∧
        OnlyChanges s t (fun c => c = .pc))) ∧
    (15 < (s.getV x).toNat → ∀ i, i = .skp x ∨ i = .sknp x →
      ∃ t, exec i s = .next t ∧ t.fault = some { kind := .keyIndex, addr := s.pc - 2#16, word := encode i } ∧
        t.events = s.events ++ [.hardFault .keyIndex (s.pc - 2#16) (encode i)] ∧
        OnlyChanges s t (fun c => c ∈ [.fault, .events]))

/-- R182: the value read is DT before the step's tick. -/
def Obligations.ReadDelayTimerBeforeTheTick : Prop :=
  Encodes 0xF007#16 0xF0FF#16 (fun w => .ldVxDt (xField w)) ∧
  (∀ (x : Reg) (s : State), ∃ t, exec (.ldVxDt x) s = .next t ∧ t.getV x = s.dt ∧
    OnlyChanges s t (fun c => c = .reg x)) ∧
  ∀ (x : Reg) (s : State), s.fault = none → decode (fetchWord s) = .ok (.ldVxDt x) → s.params.tickInStep = true →
    ∃ t, step s = .next t ∧ t.getV x = s.dt ∧ t.dt.toNat = s.dt.toNat - 1

/-- R184, R185 (D10, D12): the timer writes, and the tick of the same step. -/
def Obligations.SetTimersThenTheTickCounts : Prop :=
  Encodes 0xF015#16 0xF0FF#16 (fun w => .ldDtVx (xField w)) ∧
  Encodes 0xF018#16 0xF0FF#16 (fun w => .ldStVx (xField w)) ∧
  (∀ (x : Reg) (s : State),
    (∃ t, exec (.ldDtVx x) s = .next t ∧ t.dt = s.getV x ∧ OnlyChanges s t (fun c => c = .delay)) ∧
    (∃ t, exec (.ldStVx x) s = .next t ∧ t.st = s.getV x ∧ OnlyChanges s t (fun c => c = .sound))) ∧
  ∀ (x : Reg) (s : State), s.fault = none → s.params.tickInStep = true →
    (decode (fetchWord s) = .ok (.ldDtVx x) → ∃ t, step s = .next t ∧ t.dt.toNat = (s.getV x).toNat - 1) ∧
    (decode (fetchWord s) = .ok (.ldStVx x) → ∃ t, step s = .next t ∧ t.st.toNat = (s.getV x).toNat - 1 ∧
      t.events = (if s.getV x = 1#8 then [.tone] else []))

/-- R183 (D9): no key pressed, back to the instruction, and the whole step leaves the pc where it was; some key pressed,
a pressed key's number in Vx (which one is the free value of log 6). -/
def Obligations.KeyWaitRepeatsOrStoresAPressedKey : Prop :=
  Encodes 0xF00A#16 0xF0FF#16 (fun w => .ldVxK (xField w)) ∧
  (∀ (x : Reg) (s : State),
    ((∀ k, s.keyDown k = false) → ∃ t, exec (.ldVxK x) s = .next t ∧ t.pc = s.pc - 2#16 ∧
      OnlyChanges s t (fun c => c = .pc)) ∧
    ((∃ k, s.keyDown k = true) → ∃ t k, exec (.ldVxK x) s = .next t ∧ s.keyDown k = true ∧
      (t.getV x).toNat = k.val ∧ OnlyChanges s t (fun c => c ∈ [.reg x, .keyDraws]))) ∧
  ∀ (x : Reg) (s : State), s.fault = none → decode (fetchWord s) = .ok (.ldVxK x) → (∀ k, s.keyDown k = false) →
    ∃ t, step s = .next t ∧ t.pc = s.pc ∧ OnlyChanges s t (fun c => c ∈ [.delay, .sound, .events, .outcome])

/-! ## Rules of the whole machine -/

/-- R35, column W (derived in the spec): no instruction changes a component its row does not list. -/
def Obligations.ExecWritesOnlyWhatTheTableLists : Prop :=
  ∀ (i : Instr) (s t : State), exec i s = .next t → OnlyChanges s t (mayWrite s i)

/-- R35, column R (derived in the spec): what an instruction writes depends only on what its row lists as read (and on the
pc, the fault status, the event list and the parameters): from two states that agree on those, the results agree on every
component the row lists as written, or neither run changed it (the Vx of a waiting Fx0A). -/
def Obligations.ExecDependsOnlyOnWhatTheTableLists : Prop :=
  ∀ (i : Instr) (s s' t t' : State), (∀ c, mayRead s i c ∨ alwaysRead c → Agree s s' c) →
    exec i s = .next t → exec i s' = .next t' →
    ∀ c, mayWrite s i c → Agree t t' c ∨ (Agree s t c ∧ Agree s' t' c)

/-- R29: no step changes the keypad, and of the host's calls only setKey and reset do. -/
def Obligations.KeypadChangesOnlyByTheHost : Prop :=
  (∀ s t : State, step s = .next t → t.key = s.key) ∧
  ∀ (s : State) (c : HostCall), (hostCall c s).2.key ≠ s.key → c = .reset ∨ ∃ k b, c = .setKey k b

/-- R25: over one step the stack is unchanged, or 2nnn pushed the address of the next word below capacity, or 00EE popped
into the pc. -/
def Obligations.StackChangesOnlyByCallAndReturn : Prop :=
  ∀ s t : State, step s = .next t →
    t.stack = s.stack ∨
    ((∃ nnn, decode (fetchWord s) = .ok (.call nnn)) ∧ s.stack.length ≠ s.params.stackDepth ∧
      t.stack = (s.pc + 2#16) :: s.stack) ∨
    (decode (fetchWord s) = .ok .ret ∧ s.stack = t.pc :: t.stack)

/-- R28: 00E0 and Dxyn set dirty on every execution, no step clears it, no other instruction sets it, and of the host's
calls only consumeDirtyFrame and reset change it. -/
def Obligations.DirtyIsSetByDisplayAndClearedByTheHost : Prop :=
  (∀ s t : State, step s = .next t → s.fault = none →
    (decode (fetchWord s) = .ok .cls ∨ (∃ x y n, decode (fetchWord s) = .ok (.drw x y n)) → t.dirty = true) ∧
    (¬ (decode (fetchWord s) = .ok .cls ∨ ∃ x y n, decode (fetchWord s) = .ok (.drw x y n)) → t.dirty = s.dirty)) ∧
  ∀ (s : State) (c : HostCall), (hostCall c s).2.dirty ≠ s.dirty → c = .consumeDirtyFrame ∨ c = .reset

/-- R55, R63: over one step memory changes only where Fx33 or Fx55 runs, so no read and no fetch changes it, and of the
host's calls only reset and loadProgram change it. -/
def Obligations.MemoryChangesOnlyByStoresAndTheHost : Prop :=
  (∀ (s t : State) (a : Nat), step s = .next t → t.memRead a ≠ s.memRead a →
    s.fault = none ∧ ∃ x, decode (fetchWord s) = .ok (.ldB x) ∨ decode (fetchWord s) = .ok (.storeBlock x)) ∧
  ∀ (s : State) (c : HostCall) (a : Nat), (hostCall c s).2.memRead a ≠ s.memRead a →
    c = .reset ∨ ∃ bytes, c = .loadProgram bytes

/-- The parameters of R7 are fixed for the machine: no step and no host call changes them (the model holds them in State,
log 1). -/
def Obligations.ParametersNeverChange : Prop :=
  (∀ s t : State, step s = .next t → t.params = s.params) ∧ ∀ (s : State) (c : HostCall), (hostCall c s).2.params = s.params

/-! ## Host interface -/

/-- R231 (D19, D28): the whole program at 0x200 and nothing else, or LoadError and nothing at all. -/
def Obligations.LoadProgramCopiesOrRejectsWhole : Prop :=
  ∀ (bytes : List Byte) (s : State),
    (bytes.length > 3584 → hostCall (.loadProgram bytes) s = (.loadError, s)) ∧
    (bytes.length ≤ 3584 → ∃ t, hostCall (.loadProgram bytes) s = (.done, t) ∧
      (∀ i, (h : i < bytes.length) → t.memRead (0x200 + i) = bytes[i]) ∧
      OnlyChanges s t (fun c => ∃ i, i < bytes.length ∧ c = byteAt (0x200 + i)))

/-- R212, R213 (D22): setKey and isKeyDown, and their refusal above 15. -/
def Obligations.KeyCallsWriteAndReadOneKey : Prop :=
  ∀ (s : State) (k : Nat) (pressed : Bool),
    ((h : k < 16) → (∃ t, hostCall (.setKey k pressed) s = (.done, t) ∧ t.keyDown ⟨k, h⟩ = pressed ∧
        OnlyChanges s t (fun c => c = .key ⟨k, h⟩)) ∧
      hostCall (.isKeyDown k) s = (.flag (s.keyDown ⟨k, h⟩), s)) ∧
    (15 < k → hostCall (.setKey k pressed) s = (.refused, s) ∧ hostCall (.isKeyDown k) s = (.refused, s))

/-- R214 (D31): the frame as it stands, dirty cleared, nothing else; a second call returns the same frame. -/
def Obligations.ConsumeDirtyFrameReturnsTheFrame : Prop :=
  ∀ s : State, ∃ t, hostCall .consumeDirtyFrame s = (.frame s.fb, t) ∧ t.dirty = false ∧
    OnlyChanges s t (fun c => c = .dirty) ∧ hostCall .consumeDirtyFrame t = (.frame s.fb, t)

/-- R211, R187 (D10): the host's tick, only when TICK_IN_STEP is false; that a faulted core does not tick is D11 read for
this call (log 17). -/
def Obligations.HostTickCountsOnlyOutsideSteps : Prop :=
  ∀ s : State,
    (s.params.tickInStep = true → hostCall .tick s = (.refused, s)) ∧
    (s.params.tickInStep = false → s.fault = none →
      ∃ t, hostCall .tick s = (.ticked (if s.st = 1#8 then [.tone] else []), t) ∧
        t.dt.toNat = s.dt.toNat - 1 ∧ t.st.toNat = s.st.toNat - 1 ∧
        OnlyChanges s t (fun c => c ∈ [.delay, .sound, .events])) ∧
    (s.params.tickInStep = false → s.fault ≠ none →
      ∃ t, hostCall .tick s = (.ticked [], t) ∧ OnlyChanges s t (fun c => c = .events))
end

