-- ==== Sys2Proof/Laws/Decode.lean ====
section
/-! SUPPORT. The fields of a word built from fields, a word rebuilt from its fields, and the fields of a masked word: what
the encoder and the decoder are compared through (30_encoding.md R70, R71). -/

namespace Sys2Proof

/-! ### The fields of a built word -/

/-- A slice above the lower part of a concatenation is a slice of the upper part. -/
theorem extract_append_high {w v : Nat} (a : BitVec w) (b : BitVec v) (k n : Nat) :
    (a ++ b).extractLsb' (v + k) n = a.extractLsb' k n := by
  ext i hi
  simp only [BitVec.getElem_extractLsb', BitVec.getLsbD_append]
  rw [if_neg (by omega), show v + k + i - v = k + i by omega]

@[simp] theorem opField_formatAddr (op : BitVec 4) (nnn : Addr) : opField (formatAddr op nnn) = op :=
  BitVec.extractLsb'_append_eq_left

@[simp] theorem nnnField_formatAddr (op : BitVec 4) (nnn : Addr) : nnnField (formatAddr op nnn) = nnn :=
  BitVec.extractLsb'_append_eq_right

@[simp] theorem opField_formatRegByte (op : BitVec 4) (x : Reg) (low : Byte) : opField (formatRegByte op x low) = op :=
  (extract_append_high (op ++ regBits x) low 4 4).trans BitVec.extractLsb'_append_eq_left

@[simp] theorem xField_formatRegByte (op : BitVec 4) (x : Reg) (low : Byte) : xField (formatRegByte op x low) = x :=
  congrArg BitVec.toFin ((extract_append_high (op ++ regBits x) low 0 4).trans BitVec.extractLsb'_append_eq_right)

@[simp] theorem nnField_formatRegByte (op : BitVec 4) (x : Reg) (low : Byte) : nnField (formatRegByte op x low) = low :=
  BitVec.extractLsb'_append_eq_right

@[simp] theorem opField_formatRegReg (op : BitVec 4) (x y : Reg) (f : BitVec 4) : opField (formatRegReg op x y f) = op :=
  (extract_append_high (op ++ regBits x ++ regBits y) f 8 4).trans
    ((extract_append_high (op ++ regBits x) (regBits y) 4 4).trans BitVec.extractLsb'_append_eq_left)

@[simp] theorem xField_formatRegReg (op : BitVec 4) (x y : Reg) (f : BitVec 4) : xField (formatRegReg op x y f) = x :=
  congrArg BitVec.toFin ((extract_append_high (op ++ regBits x ++ regBits y) f 4 4).trans
    ((extract_append_high (op ++ regBits x) (regBits y) 0 4).trans BitVec.extractLsb'_append_eq_right))

@[simp] theorem yField_formatRegReg (op : BitVec 4) (x y : Reg) (f : BitVec 4) : yField (formatRegReg op x y f) = y :=
  congrArg BitVec.toFin ((extract_append_high (op ++ regBits x ++ regBits y) f 0 4).trans
    BitVec.extractLsb'_append_eq_right)

@[simp] theorem fnField_formatRegReg (op : BitVec 4) (x y : Reg) (f : BitVec 4) : fnField (formatRegReg op x y f) = f :=
  BitVec.extractLsb'_append_eq_right

@[simp] theorem nField_formatRegReg (op : BitVec 4) (x y : Reg) (n : Fin 16) :
    nField (formatRegReg op x y (regBits n)) = n :=
  congrArg BitVec.toFin (fnField_formatRegReg op x y (regBits n))

/-! ### A word rebuilt from its fields -/

theorem regBits_toFin (b : BitVec 4) : regBits b.toFin = b := rfl

theorem formatAddr_fields (w : Word) : formatAddr (opField w) (nnnField w) = w := by
  apply BitVec.eq_of_getLsbD_eq
  intro i hi
  simp only [formatAddr, BitVec.getLsbD_append, opField, nnnField, BitVec.getLsbD_extractLsb']
  by_cases h : i < 12
  · simp [h]
  · simp [h, show i - 12 < 4 by omega, show 12 + (i - 12) = i by omega]

theorem formatRegByte_fields (w : Word) : formatRegByte (opField w) (xField w) (nnField w) = w := by
  apply BitVec.eq_of_getLsbD_eq
  intro i hi
  simp only [formatRegByte, BitVec.getLsbD_append, opField, xField, nnField, regBits_toFin, BitVec.getLsbD_extractLsb']
  by_cases h : i < 8
  · simp [h]
  · by_cases h' : i < 12
    · simp [h, show i - 8 < 4 by omega, show 8 + (i - 8) = i by omega]
    · simp [h, show ¬ i - 8 < 4 by omega, show i - 8 - 4 < 4 by omega, show 12 + (i - 8 - 4) = i by omega]

theorem formatRegReg_fields (w : Word) : formatRegReg (opField w) (xField w) (yField w) (fnField w) = w := by
  apply BitVec.eq_of_getLsbD_eq
  intro i hi
  simp only [formatRegReg, BitVec.getLsbD_append, opField, xField, yField, fnField, regBits_toFin,
    BitVec.getLsbD_extractLsb']
  by_cases h : i < 4
  · simp [h]
  · by_cases h' : i < 8
    · simp [h, show i - 4 < 4 by omega, show 4 + (i - 4) = i by omega]
    · by_cases h'' : i < 12
      · simp [h, show ¬ i - 4 < 4 by omega, show i - 4 - 4 < 4 by omega, show 8 + (i - 4 - 4) = i by omega]
      · simp [h, show ¬ i - 4 < 4 by omega, show ¬ i - 4 - 4 < 4 by omega, show i - 4 - 4 - 4 < 4 by omega,
          show 12 + (i - 4 - 4 - 4) = i by omega]

theorem regBits_nField (w : Word) : regBits (nField w) = fnField w := rfl

/-! ### The fields of a masked word -/

theorem opField_and (w m : Word) : opField (w &&& m) = opField w &&& opField m := BitVec.extractLsb'_and ..

theorem fnField_and (w m : Word) : fnField (w &&& m) = fnField w &&& fnField m := BitVec.extractLsb'_and ..

theorem nnField_and (w m : Word) : nnField (w &&& m) = nnField w &&& nnField m := BitVec.extractLsb'_and ..

/-- The family of a word that matches under a mask holding bits 15 to 12. -/
theorem opField_of_match {w p m : Word} (h : w &&& m = p) (hm : opField m = 0xF#4) : opField w = opField p := by
  rw [← h, opField_and, hm, show (0xF#4 : BitVec 4) = BitVec.allOnes 4 from rfl, BitVec.and_allOnes]

/-- The function nibble of a word that matches under a mask holding bits 3 to 0. -/
theorem fnField_of_match {w p m : Word} (h : w &&& m = p) (hm : fnField m = 0xF#4) : fnField w = fnField p := by
  rw [← h, fnField_and, hm, show (0xF#4 : BitVec 4) = BitVec.allOnes 4 from rfl, BitVec.and_allOnes]

/-- The function byte of a word that matches under a mask holding bits 7 to 0. -/
theorem nnField_of_match {w p m : Word} (h : w &&& m = p) (hm : nnField m = 0xFF#8) : nnField w = nnField p := by
  rw [← h, nnField_and, hm, show (0xFF#8 : BitVec 8) = BitVec.allOnes 8 from rfl, BitVec.and_allOnes]

theorem nnnField_and (w m : Word) : nnnField (w &&& m) = nnnField w &&& nnnField m := BitVec.extractLsb'_and ..

/-- The bits the mask of a whole-family row keeps (30_encoding.md R73). -/
theorem and_F000 (w : Word) : w &&& 0xF000#16 = formatAddr (opField w) 0#12 := by
  have hm : opField 0xF000#16 = BitVec.allOnes 4 := rfl
  have hz : nnnField 0xF000#16 = 0#12 := rfl
  rw [← formatAddr_fields (w &&& 0xF000#16), opField_and, nnnField_and, hm, hz, BitVec.and_allOnes, BitVec.and_zero]

/-- The bits the mask of a function-byte row keeps (30_encoding.md R73). -/
theorem and_F0FF (w : Word) : w &&& 0xF0FF#16 = formatRegByte (opField w) 0 (nnField w) := by
  have hm : opField 0xF0FF#16 = BitVec.allOnes 4 := rfl
  have hn : nnField 0xF0FF#16 = BitVec.allOnes 8 := rfl
  have hx : xField (w &&& 0xF0FF#16) = 0 := by
    rw [xField, BitVec.extractLsb'_and, show (0xF0FF#16).extractLsb' 8 4 = 0#4 from rfl, BitVec.and_zero]; rfl
  rw [← formatRegByte_fields (w &&& 0xF0FF#16), opField_and, nnField_and, hm, hn, hx, BitVec.and_allOnes, BitVec.and_allOnes]

/-- The bits the mask of a function-nibble row keeps (30_encoding.md R73). -/
theorem and_F00F (w : Word) : w &&& 0xF00F#16 = formatRegReg (opField w) 0 0 (fnField w) := by
  have hm : opField 0xF00F#16 = BitVec.allOnes 4 := rfl
  have hn : fnField 0xF00F#16 = BitVec.allOnes 4 := rfl
  have hx : xField (w &&& 0xF00F#16) = 0 := by
    rw [xField, BitVec.extractLsb'_and, show (0xF00F#16).extractLsb' 8 4 = 0#4 from rfl, BitVec.and_zero]; rfl
  have hy : yField (w &&& 0xF00F#16) = 0 := by
    rw [yField, BitVec.extractLsb'_and, show (0xF00F#16).extractLsb' 4 4 = 0#4 from rfl, BitVec.and_zero]; rfl
  rw [← formatRegReg_fields (w &&& 0xF00F#16), opField_and, fnField_and, hm, hn, hx, hy, BitVec.and_allOnes,
    BitVec.and_allOnes]

/-! ### Bytes of a word -/

@[simp] theorem wordOfBytes_bytes (w : Word) : wordOfBytes (firstByte w) (secondByte w) = w := by
  apply BitVec.eq_of_toNat_eq
  simp only [wordOfBytes, firstByte, secondByte, BitVec.toNat_ofNat, BitVec.extractLsb'_toNat, Nat.shiftRight_eq_div_pow]
  have := w.isLt
  omega

end Sys2Proof
end

