-- ==== Sys2Proof/Laws/State.lean ====
section
/-! SUPPORT. For each primitive update of the state, what each field, register, byte, pixel and key is after it: one
lemma each, true by rfl, so that no later proof unfolds a record update. -/

namespace Sys2Proof.Machine

variable (s : State)

/-! ### memWrite -/

@[simp] theorem memWrite_mem (a : Nat) (b : Byte) : (s.memWrite a b).mem = Memory.write s.params s.mem (a % Config.memSize) b := rfl
@[simp] theorem memWrite_v (a : Nat) (b : Byte) : (s.memWrite a b).v = s.v := rfl
@[simp] theorem memWrite_iReg (a : Nat) (b : Byte) : (s.memWrite a b).iReg = s.iReg := rfl
@[simp] theorem memWrite_pc (a : Nat) (b : Byte) : (s.memWrite a b).pc = s.pc := rfl
@[simp] theorem memWrite_stack (a : Nat) (b : Byte) : (s.memWrite a b).stack = s.stack := rfl
@[simp] theorem memWrite_dt (a : Nat) (b : Byte) : (s.memWrite a b).dt = s.dt := rfl
@[simp] theorem memWrite_st (a : Nat) (b : Byte) : (s.memWrite a b).st = s.st := rfl
@[simp] theorem memWrite_fb (a : Nat) (b : Byte) : (s.memWrite a b).fb = s.fb := rfl
@[simp] theorem memWrite_dirty (a : Nat) (b : Byte) : (s.memWrite a b).dirty = s.dirty := rfl
@[simp] theorem memWrite_key (a : Nat) (b : Byte) : (s.memWrite a b).key = s.key := rfl
@[simp] theorem memWrite_fault (a : Nat) (b : Byte) : (s.memWrite a b).fault = s.fault := rfl
@[simp] theorem memWrite_params (a : Nat) (b : Byte) : (s.memWrite a b).params = s.params := rfl
@[simp] theorem memWrite_rngDraws (a : Nat) (b : Byte) : (s.memWrite a b).rngDraws = s.rngDraws := rfl
@[simp] theorem memWrite_keyDraws (a : Nat) (b : Byte) : (s.memWrite a b).keyDraws = s.keyDraws := rfl
@[simp] theorem memWrite_events (a : Nat) (b : Byte) : (s.memWrite a b).events = s.events := rfl
@[simp] theorem memWrite_outcome (a : Nat) (b : Byte) : (s.memWrite a b).outcome = s.outcome := rfl
@[simp] theorem memWrite_getV (a : Nat) (b : Byte) (y : Reg) : (s.memWrite a b).getV y = s.getV y := rfl
@[simp] theorem memWrite_pixel (a : Nat) (b : Byte) (py : Row) (px : Col) : (s.memWrite a b).pixel py px = s.pixel py px := rfl
@[simp] theorem memWrite_keyDown (a : Nat) (b : Byte) (j : Key) : (s.memWrite a b).keyDown j = s.keyDown j := rfl

/-! ### setV -/

@[simp] theorem setV_mem (x : Reg) (b : Byte) : (s.setV x b).mem = s.mem := rfl
@[simp] theorem setV_v (x : Reg) (b : Byte) : (s.setV x b).v = s.v.set x b := rfl
@[simp] theorem setV_iReg (x : Reg) (b : Byte) : (s.setV x b).iReg = s.iReg := rfl
@[simp] theorem setV_pc (x : Reg) (b : Byte) : (s.setV x b).pc = s.pc := rfl
@[simp] theorem setV_stack (x : Reg) (b : Byte) : (s.setV x b).stack = s.stack := rfl
@[simp] theorem setV_dt (x : Reg) (b : Byte) : (s.setV x b).dt = s.dt := rfl
@[simp] theorem setV_st (x : Reg) (b : Byte) : (s.setV x b).st = s.st := rfl
@[simp] theorem setV_fb (x : Reg) (b : Byte) : (s.setV x b).fb = s.fb := rfl
@[simp] theorem setV_dirty (x : Reg) (b : Byte) : (s.setV x b).dirty = s.dirty := rfl
@[simp] theorem setV_key (x : Reg) (b : Byte) : (s.setV x b).key = s.key := rfl
@[simp] theorem setV_fault (x : Reg) (b : Byte) : (s.setV x b).fault = s.fault := rfl
@[simp] theorem setV_params (x : Reg) (b : Byte) : (s.setV x b).params = s.params := rfl
@[simp] theorem setV_rngDraws (x : Reg) (b : Byte) : (s.setV x b).rngDraws = s.rngDraws := rfl
@[simp] theorem setV_keyDraws (x : Reg) (b : Byte) : (s.setV x b).keyDraws = s.keyDraws := rfl
@[simp] theorem setV_events (x : Reg) (b : Byte) : (s.setV x b).events = s.events := rfl
@[simp] theorem setV_outcome (x : Reg) (b : Byte) : (s.setV x b).outcome = s.outcome := rfl
@[simp] theorem setV_memRead (x : Reg) (b : Byte) (c : Nat) : (s.setV x b).memRead c = s.memRead c := rfl
@[simp] theorem setV_pixel (x : Reg) (b : Byte) (py : Row) (px : Col) : (s.setV x b).pixel py px = s.pixel py px := rfl
@[simp] theorem setV_keyDown (x : Reg) (b : Byte) (j : Key) : (s.setV x b).keyDown j = s.keyDown j := rfl

/-! ### setI -/

@[simp] theorem setI_mem (n : Nat) : (s.setI n).mem = s.mem := rfl
@[simp] theorem setI_v (n : Nat) : (s.setI n).v = s.v := rfl
@[simp] theorem setI_iReg (n : Nat) : (s.setI n).iReg = BitVec.ofNat 16 n &&& 0x0FFF#16 := rfl
@[simp] theorem setI_pc (n : Nat) : (s.setI n).pc = s.pc := rfl
@[simp] theorem setI_stack (n : Nat) : (s.setI n).stack = s.stack := rfl
@[simp] theorem setI_dt (n : Nat) : (s.setI n).dt = s.dt := rfl
@[simp] theorem setI_st (n : Nat) : (s.setI n).st = s.st := rfl
@[simp] theorem setI_fb (n : Nat) : (s.setI n).fb = s.fb := rfl
@[simp] theorem setI_dirty (n : Nat) : (s.setI n).dirty = s.dirty := rfl
@[simp] theorem setI_key (n : Nat) : (s.setI n).key = s.key := rfl
@[simp] theorem setI_fault (n : Nat) : (s.setI n).fault = s.fault := rfl
@[simp] theorem setI_params (n : Nat) : (s.setI n).params = s.params := rfl
@[simp] theorem setI_rngDraws (n : Nat) : (s.setI n).rngDraws = s.rngDraws := rfl
@[simp] theorem setI_keyDraws (n : Nat) : (s.setI n).keyDraws = s.keyDraws := rfl
@[simp] theorem setI_events (n : Nat) : (s.setI n).events = s.events := rfl
@[simp] theorem setI_outcome (n : Nat) : (s.setI n).outcome = s.outcome := rfl
@[simp] theorem setI_getV (n : Nat) (y : Reg) : (s.setI n).getV y = s.getV y := rfl
@[simp] theorem setI_memRead (n : Nat) (c : Nat) : (s.setI n).memRead c = s.memRead c := rfl
@[simp] theorem setI_pixel (n : Nat) (py : Row) (px : Col) : (s.setI n).pixel py px = s.pixel py px := rfl
@[simp] theorem setI_keyDown (n : Nat) (j : Key) : (s.setI n).keyDown j = s.keyDown j := rfl

/-! ### setPc -/

@[simp] theorem setPc_mem (t : Word) : (s.setPc t).mem = s.mem := rfl
@[simp] theorem setPc_v (t : Word) : (s.setPc t).v = s.v := rfl
@[simp] theorem setPc_iReg (t : Word) : (s.setPc t).iReg = s.iReg := rfl
@[simp] theorem setPc_pc (t : Word) : (s.setPc t).pc = t := rfl
@[simp] theorem setPc_stack (t : Word) : (s.setPc t).stack = s.stack := rfl
@[simp] theorem setPc_dt (t : Word) : (s.setPc t).dt = s.dt := rfl
@[simp] theorem setPc_st (t : Word) : (s.setPc t).st = s.st := rfl
@[simp] theorem setPc_fb (t : Word) : (s.setPc t).fb = s.fb := rfl
@[simp] theorem setPc_dirty (t : Word) : (s.setPc t).dirty = s.dirty := rfl
@[simp] theorem setPc_key (t : Word) : (s.setPc t).key = s.key := rfl
@[simp] theorem setPc_fault (t : Word) : (s.setPc t).fault = s.fault := rfl
@[simp] theorem setPc_params (t : Word) : (s.setPc t).params = s.params := rfl
@[simp] theorem setPc_rngDraws (t : Word) : (s.setPc t).rngDraws = s.rngDraws := rfl
@[simp] theorem setPc_keyDraws (t : Word) : (s.setPc t).keyDraws = s.keyDraws := rfl
@[simp] theorem setPc_events (t : Word) : (s.setPc t).events = s.events := rfl
@[simp] theorem setPc_outcome (t : Word) : (s.setPc t).outcome = s.outcome := rfl
@[simp] theorem setPc_getV (t : Word) (y : Reg) : (s.setPc t).getV y = s.getV y := rfl
@[simp] theorem setPc_memRead (t : Word) (c : Nat) : (s.setPc t).memRead c = s.memRead c := rfl
@[simp] theorem setPc_pixel (t : Word) (py : Row) (px : Col) : (s.setPc t).pixel py px = s.pixel py px := rfl
@[simp] theorem setPc_keyDown (t : Word) (j : Key) : (s.setPc t).keyDown j = s.keyDown j := rfl

/-! ### push -/

@[simp] theorem push_mem (a : Word) : (s.push a).mem = s.mem := rfl
@[simp] theorem push_v (a : Word) : (s.push a).v = s.v := rfl
@[simp] theorem push_iReg (a : Word) : (s.push a).iReg = s.iReg := rfl
@[simp] theorem push_pc (a : Word) : (s.push a).pc = s.pc := rfl
@[simp] theorem push_stack (a : Word) : (s.push a).stack = a :: s.stack := rfl
@[simp] theorem push_dt (a : Word) : (s.push a).dt = s.dt := rfl
@[simp] theorem push_st (a : Word) : (s.push a).st = s.st := rfl
@[simp] theorem push_fb (a : Word) : (s.push a).fb = s.fb := rfl
@[simp] theorem push_dirty (a : Word) : (s.push a).dirty = s.dirty := rfl
@[simp] theorem push_key (a : Word) : (s.push a).key = s.key := rfl
@[simp] theorem push_fault (a : Word) : (s.push a).fault = s.fault := rfl
@[simp] theorem push_params (a : Word) : (s.push a).params = s.params := rfl
@[simp] theorem push_rngDraws (a : Word) : (s.push a).rngDraws = s.rngDraws := rfl
@[simp] theorem push_keyDraws (a : Word) : (s.push a).keyDraws = s.keyDraws := rfl
@[simp] theorem push_events (a : Word) : (s.push a).events = s.events := rfl
@[simp] theorem push_outcome (a : Word) : (s.push a).outcome = s.outcome := rfl
@[simp] theorem push_getV (a : Word) (y : Reg) : (s.push a).getV y = s.getV y := rfl
@[simp] theorem push_memRead (a : Word) (c : Nat) : (s.push a).memRead c = s.memRead c := rfl
@[simp] theorem push_pixel (a : Word) (py : Row) (px : Col) : (s.push a).pixel py px = s.pixel py px := rfl
@[simp] theorem push_keyDown (a : Word) (j : Key) : (s.push a).keyDown j = s.keyDown j := rfl

/-! ### display -/

@[simp] theorem display_mem (fb : Framebuffer) : (s.display fb).mem = s.mem := rfl
@[simp] theorem display_v (fb : Framebuffer) : (s.display fb).v = s.v := rfl
@[simp] theorem display_iReg (fb : Framebuffer) : (s.display fb).iReg = s.iReg := rfl
@[simp] theorem display_pc (fb : Framebuffer) : (s.display fb).pc = s.pc := rfl
@[simp] theorem display_stack (fb : Framebuffer) : (s.display fb).stack = s.stack := rfl
@[simp] theorem display_dt (fb : Framebuffer) : (s.display fb).dt = s.dt := rfl
@[simp] theorem display_st (fb : Framebuffer) : (s.display fb).st = s.st := rfl
@[simp] theorem display_fb (fb : Framebuffer) : (s.display fb).fb = fb := rfl
@[simp] theorem display_dirty (fb : Framebuffer) : (s.display fb).dirty = true := rfl
@[simp] theorem display_key (fb : Framebuffer) : (s.display fb).key = s.key := rfl
@[simp] theorem display_fault (fb : Framebuffer) : (s.display fb).fault = s.fault := rfl
@[simp] theorem display_params (fb : Framebuffer) : (s.display fb).params = s.params := rfl
@[simp] theorem display_rngDraws (fb : Framebuffer) : (s.display fb).rngDraws = s.rngDraws := rfl
@[simp] theorem display_keyDraws (fb : Framebuffer) : (s.display fb).keyDraws = s.keyDraws := rfl
@[simp] theorem display_events (fb : Framebuffer) : (s.display fb).events = s.events := rfl
@[simp] theorem display_outcome (fb : Framebuffer) : (s.display fb).outcome = s.outcome := rfl
@[simp] theorem display_getV (fb : Framebuffer) (y : Reg) : (s.display fb).getV y = s.getV y := rfl
@[simp] theorem display_memRead (fb : Framebuffer) (c : Nat) : (s.display fb).memRead c = s.memRead c := rfl
@[simp] theorem display_keyDown (fb : Framebuffer) (j : Key) : (s.display fb).keyDown j = s.keyDown j := rfl

/-! ### setDt -/

@[simp] theorem setDt_mem (b : Byte) : (s.setDt b).mem = s.mem := rfl
@[simp] theorem setDt_v (b : Byte) : (s.setDt b).v = s.v := rfl
@[simp] theorem setDt_iReg (b : Byte) : (s.setDt b).iReg = s.iReg := rfl
@[simp] theorem setDt_pc (b : Byte) : (s.setDt b).pc = s.pc := rfl
@[simp] theorem setDt_stack (b : Byte) : (s.setDt b).stack = s.stack := rfl
@[simp] theorem setDt_dt (b : Byte) : (s.setDt b).dt = b := rfl
@[simp] theorem setDt_st (b : Byte) : (s.setDt b).st = s.st := rfl
@[simp] theorem setDt_fb (b : Byte) : (s.setDt b).fb = s.fb := rfl
@[simp] theorem setDt_dirty (b : Byte) : (s.setDt b).dirty = s.dirty := rfl
@[simp] theorem setDt_key (b : Byte) : (s.setDt b).key = s.key := rfl
@[simp] theorem setDt_fault (b : Byte) : (s.setDt b).fault = s.fault := rfl
@[simp] theorem setDt_params (b : Byte) : (s.setDt b).params = s.params := rfl
@[simp] theorem setDt_rngDraws (b : Byte) : (s.setDt b).rngDraws = s.rngDraws := rfl
@[simp] theorem setDt_keyDraws (b : Byte) : (s.setDt b).keyDraws = s.keyDraws := rfl
@[simp] theorem setDt_events (b : Byte) : (s.setDt b).events = s.events := rfl
@[simp] theorem setDt_outcome (b : Byte) : (s.setDt b).outcome = s.outcome := rfl
@[simp] theorem setDt_getV (b : Byte) (y : Reg) : (s.setDt b).getV y = s.getV y := rfl
@[simp] theorem setDt_memRead (b : Byte) (c : Nat) : (s.setDt b).memRead c = s.memRead c := rfl
@[simp] theorem setDt_pixel (b : Byte) (py : Row) (px : Col) : (s.setDt b).pixel py px = s.pixel py px := rfl
@[simp] theorem setDt_keyDown (b : Byte) (j : Key) : (s.setDt b).keyDown j = s.keyDown j := rfl

/-! ### setSt -/

@[simp] theorem setSt_mem (b : Byte) : (s.setSt b).mem = s.mem := rfl
@[simp] theorem setSt_v (b : Byte) : (s.setSt b).v = s.v := rfl
@[simp] theorem setSt_iReg (b : Byte) : (s.setSt b).iReg = s.iReg := rfl
@[simp] theorem setSt_pc (b : Byte) : (s.setSt b).pc = s.pc := rfl
@[simp] theorem setSt_stack (b : Byte) : (s.setSt b).stack = s.stack := rfl
@[simp] theorem setSt_dt (b : Byte) : (s.setSt b).dt = s.dt := rfl
@[simp] theorem setSt_st (b : Byte) : (s.setSt b).st = b := rfl
@[simp] theorem setSt_fb (b : Byte) : (s.setSt b).fb = s.fb := rfl
@[simp] theorem setSt_dirty (b : Byte) : (s.setSt b).dirty = s.dirty := rfl
@[simp] theorem setSt_key (b : Byte) : (s.setSt b).key = s.key := rfl
@[simp] theorem setSt_fault (b : Byte) : (s.setSt b).fault = s.fault := rfl
@[simp] theorem setSt_params (b : Byte) : (s.setSt b).params = s.params := rfl
@[simp] theorem setSt_rngDraws (b : Byte) : (s.setSt b).rngDraws = s.rngDraws := rfl
@[simp] theorem setSt_keyDraws (b : Byte) : (s.setSt b).keyDraws = s.keyDraws := rfl
@[simp] theorem setSt_events (b : Byte) : (s.setSt b).events = s.events := rfl
@[simp] theorem setSt_outcome (b : Byte) : (s.setSt b).outcome = s.outcome := rfl
@[simp] theorem setSt_getV (b : Byte) (y : Reg) : (s.setSt b).getV y = s.getV y := rfl
@[simp] theorem setSt_memRead (b : Byte) (c : Nat) : (s.setSt b).memRead c = s.memRead c := rfl
@[simp] theorem setSt_pixel (b : Byte) (py : Row) (px : Col) : (s.setSt b).pixel py px = s.pixel py px := rfl
@[simp] theorem setSt_keyDown (b : Byte) (j : Key) : (s.setSt b).keyDown j = s.keyDown j := rfl

/-! ### emit -/

@[simp] theorem emit_mem (e : Event) : (s.emit e).mem = s.mem := rfl
@[simp] theorem emit_v (e : Event) : (s.emit e).v = s.v := rfl
@[simp] theorem emit_iReg (e : Event) : (s.emit e).iReg = s.iReg := rfl
@[simp] theorem emit_pc (e : Event) : (s.emit e).pc = s.pc := rfl
@[simp] theorem emit_stack (e : Event) : (s.emit e).stack = s.stack := rfl
@[simp] theorem emit_dt (e : Event) : (s.emit e).dt = s.dt := rfl
@[simp] theorem emit_st (e : Event) : (s.emit e).st = s.st := rfl
@[simp] theorem emit_fb (e : Event) : (s.emit e).fb = s.fb := rfl
@[simp] theorem emit_dirty (e : Event) : (s.emit e).dirty = s.dirty := rfl
@[simp] theorem emit_key (e : Event) : (s.emit e).key = s.key := rfl
@[simp] theorem emit_fault (e : Event) : (s.emit e).fault = s.fault := rfl
@[simp] theorem emit_params (e : Event) : (s.emit e).params = s.params := rfl
@[simp] theorem emit_rngDraws (e : Event) : (s.emit e).rngDraws = s.rngDraws := rfl
@[simp] theorem emit_keyDraws (e : Event) : (s.emit e).keyDraws = s.keyDraws := rfl
@[simp] theorem emit_events (e : Event) : (s.emit e).events = s.events ++ [e] := rfl
@[simp] theorem emit_outcome (e : Event) : (s.emit e).outcome = s.outcome := rfl
@[simp] theorem emit_getV (e : Event) (y : Reg) : (s.emit e).getV y = s.getV y := rfl
@[simp] theorem emit_memRead (e : Event) (c : Nat) : (s.emit e).memRead c = s.memRead c := rfl
@[simp] theorem emit_pixel (e : Event) (py : Row) (px : Col) : (s.emit e).pixel py px = s.pixel py px := rfl
@[simp] theorem emit_keyDown (e : Event) (j : Key) : (s.emit e).keyDown j = s.keyDown j := rfl

/-! ### countKeyDraw -/

@[simp] theorem countKeyDraw_mem : (s.countKeyDraw).mem = s.mem := rfl
@[simp] theorem countKeyDraw_v : (s.countKeyDraw).v = s.v := rfl
@[simp] theorem countKeyDraw_iReg : (s.countKeyDraw).iReg = s.iReg := rfl
@[simp] theorem countKeyDraw_pc : (s.countKeyDraw).pc = s.pc := rfl
@[simp] theorem countKeyDraw_stack : (s.countKeyDraw).stack = s.stack := rfl
@[simp] theorem countKeyDraw_dt : (s.countKeyDraw).dt = s.dt := rfl
@[simp] theorem countKeyDraw_st : (s.countKeyDraw).st = s.st := rfl
@[simp] theorem countKeyDraw_fb : (s.countKeyDraw).fb = s.fb := rfl
@[simp] theorem countKeyDraw_dirty : (s.countKeyDraw).dirty = s.dirty := rfl
@[simp] theorem countKeyDraw_key : (s.countKeyDraw).key = s.key := rfl
@[simp] theorem countKeyDraw_fault : (s.countKeyDraw).fault = s.fault := rfl
@[simp] theorem countKeyDraw_params : (s.countKeyDraw).params = s.params := rfl
@[simp] theorem countKeyDraw_rngDraws : (s.countKeyDraw).rngDraws = s.rngDraws := rfl
@[simp] theorem countKeyDraw_keyDraws : (s.countKeyDraw).keyDraws = s.keyDraws + 1 := rfl
@[simp] theorem countKeyDraw_events : (s.countKeyDraw).events = s.events := rfl
@[simp] theorem countKeyDraw_outcome : (s.countKeyDraw).outcome = s.outcome := rfl
@[simp] theorem countKeyDraw_getV (y : Reg) : (s.countKeyDraw).getV y = s.getV y := rfl
@[simp] theorem countKeyDraw_memRead (c : Nat) : (s.countKeyDraw).memRead c = s.memRead c := rfl
@[simp] theorem countKeyDraw_pixel (py : Row) (px : Col) : (s.countKeyDraw).pixel py px = s.pixel py px := rfl
@[simp] theorem countKeyDraw_keyDown (j : Key) : (s.countKeyDraw).keyDown j = s.keyDown j := rfl

/-! ### drawRandom -/

@[simp] theorem drawRandom_mem : (s.drawRandom.2).mem = s.mem := rfl
@[simp] theorem drawRandom_v : (s.drawRandom.2).v = s.v := rfl
@[simp] theorem drawRandom_iReg : (s.drawRandom.2).iReg = s.iReg := rfl
@[simp] theorem drawRandom_pc : (s.drawRandom.2).pc = s.pc := rfl
@[simp] theorem drawRandom_stack : (s.drawRandom.2).stack = s.stack := rfl
@[simp] theorem drawRandom_dt : (s.drawRandom.2).dt = s.dt := rfl
@[simp] theorem drawRandom_st : (s.drawRandom.2).st = s.st := rfl
@[simp] theorem drawRandom_fb : (s.drawRandom.2).fb = s.fb := rfl
@[simp] theorem drawRandom_dirty : (s.drawRandom.2).dirty = s.dirty := rfl
@[simp] theorem drawRandom_key : (s.drawRandom.2).key = s.key := rfl
@[simp] theorem drawRandom_fault : (s.drawRandom.2).fault = s.fault := rfl
@[simp] theorem drawRandom_params : (s.drawRandom.2).params = s.params := rfl
@[simp] theorem drawRandom_rngDraws : (s.drawRandom.2).rngDraws = s.rngDraws + 1 := rfl
@[simp] theorem drawRandom_keyDraws : (s.drawRandom.2).keyDraws = s.keyDraws := rfl
@[simp] theorem drawRandom_events : (s.drawRandom.2).events = s.events := rfl
@[simp] theorem drawRandom_outcome : (s.drawRandom.2).outcome = s.outcome := rfl
@[simp] theorem drawRandom_getV (y : Reg) : (s.drawRandom.2).getV y = s.getV y := rfl
@[simp] theorem drawRandom_memRead (c : Nat) : (s.drawRandom.2).memRead c = s.memRead c := rfl
@[simp] theorem drawRandom_pixel (py : Row) (px : Col) : (s.drawRandom.2).pixel py px = s.pixel py px := rfl
@[simp] theorem drawRandom_keyDown (j : Key) : (s.drawRandom.2).keyDown j = s.keyDown j := rfl

/-! ### raiseFault -/

@[simp] theorem raiseFault_mem (k : HardFault) (w : Word) : (s.raiseFault k w).mem = s.mem := rfl
@[simp] theorem raiseFault_v (k : HardFault) (w : Word) : (s.raiseFault k w).v = s.v := rfl
@[simp] theorem raiseFault_iReg (k : HardFault) (w : Word) : (s.raiseFault k w).iReg = s.iReg := rfl
@[simp] theorem raiseFault_pc (k : HardFault) (w : Word) : (s.raiseFault k w).pc = s.pc := rfl
@[simp] theorem raiseFault_stack (k : HardFault) (w : Word) : (s.raiseFault k w).stack = s.stack := rfl
@[simp] theorem raiseFault_dt (k : HardFault) (w : Word) : (s.raiseFault k w).dt = s.dt := rfl
@[simp] theorem raiseFault_st (k : HardFault) (w : Word) : (s.raiseFault k w).st = s.st := rfl
@[simp] theorem raiseFault_fb (k : HardFault) (w : Word) : (s.raiseFault k w).fb = s.fb := rfl
@[simp] theorem raiseFault_dirty (k : HardFault) (w : Word) : (s.raiseFault k w).dirty = s.dirty := rfl
@[simp] theorem raiseFault_key (k : HardFault) (w : Word) : (s.raiseFault k w).key = s.key := rfl
@[simp] theorem raiseFault_fault (k : HardFault) (w : Word) : (s.raiseFault k w).fault = some { kind := k, addr := s.instrAddr, word := w } := rfl
@[simp] theorem raiseFault_params (k : HardFault) (w : Word) : (s.raiseFault k w).params = s.params := rfl
@[simp] theorem raiseFault_rngDraws (k : HardFault) (w : Word) : (s.raiseFault k w).rngDraws = s.rngDraws := rfl
@[simp] theorem raiseFault_keyDraws (k : HardFault) (w : Word) : (s.raiseFault k w).keyDraws = s.keyDraws := rfl
@[simp] theorem raiseFault_events (k : HardFault) (w : Word) : (s.raiseFault k w).events = s.events ++ [.hardFault k s.instrAddr w] := rfl
@[simp] theorem raiseFault_outcome (k : HardFault) (w : Word) : (s.raiseFault k w).outcome = s.outcome := rfl
@[simp] theorem raiseFault_getV (k : HardFault) (w : Word) (y : Reg) : (s.raiseFault k w).getV y = s.getV y := rfl
@[simp] theorem raiseFault_memRead (k : HardFault) (w : Word) (c : Nat) : (s.raiseFault k w).memRead c = s.memRead c := rfl
@[simp] theorem raiseFault_pixel (k : HardFault) (w : Word) (py : Row) (px : Col) : (s.raiseFault k w).pixel py px = s.pixel py px := rfl
@[simp] theorem raiseFault_keyDown (k : HardFault) (w : Word) (j : Key) : (s.raiseFault k w).keyDown j = s.keyDown j := rfl

/-! ### beginStep -/

@[simp] theorem beginStep_mem : (beginStep s).mem = s.mem := rfl
@[simp] theorem beginStep_v : (beginStep s).v = s.v := rfl
@[simp] theorem beginStep_iReg : (beginStep s).iReg = s.iReg := rfl
@[simp] theorem beginStep_pc : (beginStep s).pc = s.pc + 2#16 := rfl
@[simp] theorem beginStep_stack : (beginStep s).stack = s.stack := rfl
@[simp] theorem beginStep_dt : (beginStep s).dt = s.dt := rfl
@[simp] theorem beginStep_st : (beginStep s).st = s.st := rfl
@[simp] theorem beginStep_fb : (beginStep s).fb = s.fb := rfl
@[simp] theorem beginStep_dirty : (beginStep s).dirty = s.dirty := rfl
@[simp] theorem beginStep_key : (beginStep s).key = s.key := rfl
@[simp] theorem beginStep_fault : (beginStep s).fault = s.fault := rfl
@[simp] theorem beginStep_params : (beginStep s).params = s.params := rfl
@[simp] theorem beginStep_rngDraws : (beginStep s).rngDraws = s.rngDraws := rfl
@[simp] theorem beginStep_keyDraws : (beginStep s).keyDraws = s.keyDraws := rfl
@[simp] theorem beginStep_events : (beginStep s).events = [] := rfl
@[simp] theorem beginStep_outcome : (beginStep s).outcome = s.outcome := rfl
@[simp] theorem beginStep_getV (y : Reg) : (beginStep s).getV y = s.getV y := rfl
@[simp] theorem beginStep_memRead (c : Nat) : (beginStep s).memRead c = s.memRead c := rfl
@[simp] theorem beginStep_pixel (py : Row) (px : Col) : (beginStep s).pixel py px = s.pixel py px := rfl
@[simp] theorem beginStep_keyDown (j : Key) : (beginStep s).keyDown j = s.keyDown j := rfl

end Sys2Proof.Machine
end

