-- ==== Sys2Proof/Laws/Memory.lean ====
section
/-! SUPPORT. The laws of memory: a read after a write, and that a write keeps the canonical form. The first needs no
hypothesis on the memory it starts from. -/

namespace Sys2Proof.Machine

@[simp] theorem read_nil (p : Params) (a : Nat) : Memory.read p [] a = resetByte p a := rfl

theorem read_cons (p : Params) (b : Nat) (w : Byte) (m : Memory) (a : Nat) :
    Memory.read p ((b, w) :: m) a = if b = a then w else Memory.read p m a := rfl

theorem erase_cons (b : Nat) (w : Byte) (m : Memory) (a : Nat) :
    Memory.erase ((b, w) :: m) a = if b = a then Memory.erase m a else (b, w) :: Memory.erase m a := by
  by_cases h : b = a <;> simp [Memory.erase, h]

theorem read_erase (p : Params) (m : Memory) (a b : Nat) :
    Memory.read p (Memory.erase m a) b = if b = a then resetByte p b else Memory.read p m b := by
  induction m with
  | nil => simp [Memory.erase]
  | cons c m ih =>
    obtain ⟨d, w⟩ := c
    rw [erase_cons]
    by_cases hd : d = a <;> by_cases hb : b = a <;> by_cases hdb : d = b <;> simp_all [read_cons]

theorem read_insert (p : Params) (m : Memory) (a b : Nat) (v : Byte) :
    Memory.read p (Memory.insert a v (Memory.erase m a)) b = if b = a then v else Memory.read p m b := by
  induction m with
  | nil => by_cases h : b = a <;> simp [Memory.erase, Memory.insert, read_cons, h, Ne.symm]
  | cons c m ih =>
    obtain ⟨d, w⟩ := c
    have he := read_erase p m a b
    rw [erase_cons]
    by_cases hd : d = a
    · subst hd
      by_cases hb : b = d
      · simpa [hb] using ih
      · simp [ih, hb, read_cons, Ne.symm hb]
    · rw [if_neg hd, Memory.insert]
      by_cases hb : b = a
      · subst hb; by_cases hlt : b < d <;> simp [hlt, read_cons, hd, ih]
      · by_cases hlt : a < d <;> simp [hlt, read_cons, hb, Ne.symm hb, ih, he]

/-- A read after a write: the written byte at its address, every other byte as before (20_memory.md R55). -/
theorem read_write (p : Params) (m : Memory) (a b : Nat) (v : Byte) :
    Memory.read p (Memory.write p m a v) b = if b = a then v else Memory.read p m b := by
  unfold Memory.write
  split
  · next h => rw [read_erase]; by_cases hb : b = a <;> simp [hb, h]
  · exact read_insert p m a b v

theorem wfFrom_cons (p : Params) (lo a : Nat) (v : Byte) (m : Memory) :
    Memory.wfFrom p lo ((a, v) :: m) = true ↔
      lo ≤ a ∧ a < Config.memSize ∧ v ≠ resetByte p a ∧ Memory.wfFrom p (a + 1) m = true := by
  simp [Memory.wfFrom, and_assoc]

theorem wfFrom_mono (p : Params) {lo lo' : Nat} (hl : lo' ≤ lo) {m : Memory} (h : Memory.wfFrom p lo m = true) :
    Memory.wfFrom p lo' m = true := by
  cases m with
  | nil => rfl
  | cons c m =>
    obtain ⟨a, v⟩ := c
    rw [wfFrom_cons] at h ⊢
    exact ⟨hl.trans h.1, h.2⟩

theorem wfFrom_erase (p : Params) (a : Nat) {lo : Nat} {m : Memory} (h : Memory.wfFrom p lo m = true) :
    Memory.wfFrom p lo (Memory.erase m a) = true := by
  induction m generalizing lo with
  | nil => rfl
  | cons c m ih =>
    obtain ⟨b, w⟩ := c
    rw [wfFrom_cons] at h
    rw [erase_cons]
    split
    · exact wfFrom_mono p (Nat.le_succ_of_le h.1) (ih h.2.2.2)
    · rw [wfFrom_cons]; exact ⟨h.1, h.2.1, h.2.2.1, ih h.2.2.2⟩

theorem wfFrom_insert (p : Params) {a lo : Nat} {v : Byte} (ha : a < Config.memSize) (hv : v ≠ resetByte p a) (hlo : lo ≤ a)
    {m : Memory} (h : Memory.wfFrom p lo m = true) : Memory.wfFrom p lo (Memory.insert a v (Memory.erase m a)) = true := by
  induction m generalizing lo with
  | nil => simp [Memory.erase, Memory.insert, Memory.wfFrom, hlo, hv, ha]
  | cons c m ih =>
    obtain ⟨b, w⟩ := c
    rw [wfFrom_cons] at h
    rw [erase_cons]
    split
    · next hb => subst hb; exact ih hlo (wfFrom_mono p (Nat.le_succ_of_le h.1) h.2.2.2)
    · next hb =>
      rw [Memory.insert]
      split
      · next hab =>
        simp only [wfFrom_cons]
        exact ⟨hlo, ha, hv, by omega, h.2.1, h.2.2.1, wfFrom_erase p a h.2.2.2⟩
      · next hab =>
        rw [wfFrom_cons]
        exact ⟨h.1, h.2.1, h.2.2.1, ih (by omega) h.2.2.2⟩

/-- Every write of memory keeps its canonical form. -/
theorem wf_write (p : Params) {m : Memory} {a : Nat} (ha : a < Config.memSize) (v : Byte) (h : Memory.wf p m = true) :
    Memory.wf p (Memory.write p m a v) = true := by
  unfold Memory.write
  split
  · exact wfFrom_erase p a h
  · next hv => exact wfFrom_insert p ha hv (Nat.zero_le a) h

/-! ### Through the state -/

/-- A byte after a store: the stored byte at the wrapped address, every other byte as before (20_memory.md R51, R55). -/
theorem memRead_memWrite (s : State) (a b : Nat) (v : Byte) :
    (s.memWrite a v).memRead b = if b % Config.memSize = a % Config.memSize then v else s.memRead b := by
  simp [State.memRead, read_write]

theorem memRead_mod (s : State) (a : Nat) : s.memRead (a % Config.memSize) = s.memRead a := by
  simp [State.memRead]

theorem memRead_congr {s t : State} (hp : t.params = s.params) (hm : t.mem = s.mem) (a : Nat) : t.memRead a = s.memRead a := by
  simp [State.memRead, hp, hm]

theorem memWrite_wf (s : State) (a : Nat) (v : Byte) (h : Memory.wf s.params s.mem = true) :
    Memory.wf (s.memWrite a v).params (s.memWrite a v).mem = true :=
  wf_write s.params (Nat.mod_lt _ (by decide)) v h

end Sys2Proof.Machine
end

