-- ==== Sys2Proof/Laws/Ops.lean ====
section
/-! SUPPORT. One lemma for each shared operation that says what can be read after it. -/

namespace Sys2Proof.Machine

/-! ### Registers -/

theorem getV_setV (s : State) (x y : Reg) (b : Byte) : (s.setV x b).getV y = if y = x then b else s.getV y := by
  simp only [State.getV, State.setV, Vector.get_eq_getElem, Vector.getElem_set, Fin.ext_iff, eq_comm]

@[simp] theorem getV_setV_self (s : State) (x : Reg) (b : Byte) : (s.setV x b).getV x = b := by simp [getV_setV]

theorem getV_setV_ne (s : State) {x y : Reg} (b : Byte) (h : y ≠ x) : (s.setV x b).getV y = s.getV y := by
  simp [getV_setV, h]

theorem getV_congr {s t : State} (h : t.v = s.v) (x : Reg) : t.getV x = s.getV x := by simp [State.getV, h]

/-- I after a write is the value mod 4096 (10_state.md R23). -/
theorem setI_toNat (s : State) (n : Nat) : (s.setI n).iReg.toNat = n % 4096 := by
  have h : (0x0FFF#16).toNat = 2 ^ 12 - 1 := rfl
  rw [setI_iReg, BitVec.toNat_and, h, Nat.and_two_pow_sub_one_eq_mod, BitVec.toNat_ofNat]
  omega

/-! ### The framebuffer -/

theorem pixel_setPixel (fb : Framebuffer) (py qy : Row) (px qx : Col) (b : Bool) :
    Framebuffer.pixel (Framebuffer.setPixel fb py px b) qy qx =
      if qy = py ∧ qx = px then b else Framebuffer.pixel fb qy qx := by
  simp only [Framebuffer.pixel, Framebuffer.setPixel, Vector.get_eq_getElem, Vector.getElem_set, Fin.ext_iff]
  by_cases hy : (py : Nat) = qy <;> by_cases hx : (px : Nat) = qx <;> simp_all [eq_comm]

@[simp] theorem pixel_blank (py : Row) (px : Col) : Framebuffer.pixel Framebuffer.blank py px = false := by
  simp [Framebuffer.pixel, Framebuffer.blank, Vector.get_eq_getElem]

@[simp] theorem display_pixel (s : State) (fb : Framebuffer) (py : Row) (px : Col) :
    (s.display fb).pixel py px = Framebuffer.pixel fb py px := rfl

/-! ### The keypad -/

theorem mem_pressedKeys (s : State) (k : Key) : k ∈ s.pressedKeys ↔ s.keyDown k = true := by
  simp [State.pressedKeys]

theorem chooseKey_none (c : Nat) (ks : List Key) : chooseKey c ks = none ↔ ks = [] := by
  rcases ks with _ | ⟨k, _ | ⟨l, ks⟩⟩ <;> simp [chooseKey]

/-- The key a draw takes is one of the pressed keys (45_keys_timers.md R183). -/
theorem chooseKey_mem {c : Nat} {ks : List Key} {k : Key} (h : chooseKey c ks = some k) : k ∈ ks := by
  rcases ks with _ | ⟨a, _ | ⟨b, ks⟩⟩
  · simp [chooseKey] at h
  · simp [chooseKey] at h; simp [h]
  · have hlt : Config.keyWaitChoice c % (ks.length + 2) < (a :: b :: ks).length := Nat.mod_lt _ (by simp)
    simp only [chooseKey, Option.some.injEq] at h
    rw [List.getD_eq_getElem _ _ hlt] at h
    exact h ▸ List.getElem_mem hlt

theorem chooseKey_singleton (c : Nat) (k : Key) : chooseKey c [k] = some k := rfl

/-- The key lookup: a key's state below 16, nothing from 16 on (45_keys_timers.md R186). -/
theorem keyAt_of_lt (s : State) {b : Byte} (h : b.toNat < 16) : s.keyAt b = some (s.keyDown ⟨b.toNat, h⟩) := by
  simp [State.keyAt, h]

theorem keyAt_of_ge (s : State) {b : Byte} (h : 16 ≤ b.toNat) : s.keyAt b = none := by
  simp [State.keyAt, Nat.not_lt.mpr h]

/-! ### The stack -/

theorem pop_none (s : State) : s.pop = none ↔ s.stack = [] := by
  unfold State.pop; split <;> simp_all

theorem pop_some (s : State) {a : Word} {rest : List Word} (h : s.stack = a :: rest) :
    s.pop = some (a, { s with stack := rest }) := by
  unfold State.pop; split <;> simp_all

theorem stackFull_iff (s : State) : s.stackFull = true ↔ s.stack.length = s.params.stackDepth := by
  simp [State.stackFull]

/-! ### The tick -/

/-- Everything a tick does: each timer one down unless 0, a Tone when ST reaches 0 (45_keys_timers.md R187). -/
theorem tick_eq (s : State) : s.tick =
    { s with
      dt := if s.dt = 0#8 then 0#8 else s.dt - 1#8
      st := if s.st = 0#8 then 0#8 else s.st - 1#8
      events := if s.st = 1#8 then s.events ++ [.tone] else s.events } := by
  have h1 : s.st - 1#8 = 0#8 ↔ s.st = 1#8 := by
    constructor
    · intro h; bv_omega
    · rintro h; simp [h]
  rcases s with ⟨mem, v, iReg, pc, stack, dt, st, fb, dirty, key, fault, params, rd, kd, ev, oc⟩
  simp only [State.tick, State.tickDelay, State.tickSound, State.setDt, State.setSt, State.emit] at *
  by_cases hd : dt = 0#8 <;> by_cases hs : st = 0#8 <;> by_cases h2 : st = 1#8 <;> simp_all

end Sys2Proof.Machine
end

