-- ==== Sys2Proof/Laws/Frame.lean ====
section
/-! SUPPORT. Frames: how `OnlyChanges` composes, and the frame of every primitive update. -/

namespace Sys2Proof.Machine

theorem Agree.rfl' (s : State) (c : Component) : Agree s s c := by cases c <;> rfl

theorem Agree.trans' {s t u : State} {c : Component} (h : Agree s t c) (k : Agree t u c) : Agree s u c := by
  cases c <;> exact Eq.trans h k

theorem Agree.symm' {s t : State} {c : Component} (h : Agree s t c) : Agree t s c := by
  cases c <;> exact Eq.symm h

theorem OnlyChanges.same (s : State) (may : Component → Prop) : OnlyChanges s s may := fun c _ => Agree.rfl' s c

/-- Frames compose: what neither step may change is unchanged. -/
theorem OnlyChanges.comp {s t u : State} {p q r : Component → Prop} (h : OnlyChanges s t p) (k : OnlyChanges t u q)
    (hp : ∀ c, p c → r c) (hq : ∀ c, q c → r c) : OnlyChanges s u r :=
  fun c hc => (h c (fun x => hc (hp c x))).trans' (k c (fun x => hc (hq c x)))

theorem OnlyChanges.mono {s t : State} {p q : Component → Prop} (h : OnlyChanges s t p) (hpq : ∀ c, p c → q c) :
    OnlyChanges s t q := fun c hc => h c (fun x => hc (hpq c x))

theorem onlyChanges_setV (s : State) (x : Reg) (b : Byte) : OnlyChanges s (s.setV x b) (fun c => c = .reg x) := by
  intro c hc
  cases c with
  | reg y => exact (getV_setV_ne s b (fun h => hc (by rw [h]))).symm
  | _ => rfl

theorem onlyChanges_setI (s : State) (n : Nat) : OnlyChanges s (s.setI n) (fun c => c = .index) := by
  intro c hc; cases c <;> first | rfl | exact absurd rfl hc

theorem onlyChanges_setPc (s : State) (t : Word) : OnlyChanges s (s.setPc t) (fun c => c = .pc) := by
  intro c hc; cases c <;> first | rfl | exact absurd rfl hc

theorem onlyChanges_skipIf (s : State) (b : Bool) : OnlyChanges s (s.skipIf b) (fun c => c = .pc) := by
  cases b
  · exact OnlyChanges.same s _
  · exact onlyChanges_setPc s _

theorem onlyChanges_push (s : State) (a : Word) : OnlyChanges s (s.push a) (fun c => c = .stack) := by
  intro c hc; cases c <;> first | rfl | exact absurd rfl hc

theorem onlyChanges_setDt (s : State) (b : Byte) : OnlyChanges s (s.setDt b) (fun c => c = .delay) := by
  intro c hc; cases c <;> first | rfl | exact absurd rfl hc

theorem onlyChanges_setSt (s : State) (b : Byte) : OnlyChanges s (s.setSt b) (fun c => c = .sound) := by
  intro c hc; cases c <;> first | rfl | exact absurd rfl hc

theorem onlyChanges_display (s : State) (fb : Framebuffer) :
    OnlyChanges s (s.display fb) (fun c => anyPixel c ∨ c = .dirty) := by
  intro c hc
  cases c with
  | pixel py px => exact absurd (Or.inl ⟨py, px, rfl⟩) hc
  | dirty => exact absurd (Or.inr rfl) hc
  | _ => rfl

theorem onlyChanges_drawRandom (s : State) : OnlyChanges s s.drawRandom.2 (fun c => c = .rngDraws) := by
  intro c hc; cases c <;> first | rfl | exact absurd rfl hc

theorem onlyChanges_countKeyDraw (s : State) : OnlyChanges s s.countKeyDraw (fun c => c = .keyDraws) := by
  intro c hc; cases c <;> first | rfl | exact absurd rfl hc

theorem onlyChanges_raiseFault (s : State) (k : HardFault) (w : Word) :
    OnlyChanges s (s.raiseFault k w) (fun c => c = .fault ∨ c = .events) := by
  intro c hc; cases c <;> first | rfl | exact absurd (Or.inl rfl) hc | exact absurd (Or.inr rfl) hc

theorem onlyChanges_memWrite (s : State) (a : Nat) (b : Byte) : OnlyChanges s (s.memWrite a b) (fun c => c = byteAt a) := by
  intro c hc
  cases c with
  | byte d =>
    have hne : d.val % Config.memSize ≠ a % Config.memSize := by
      intro h
      refine hc (congrArg Component.byte (Fin.ext ?_))
      simpa [Fin.ofNat, Nat.mod_eq_of_lt d.isLt] using h
    simp [Agree, memRead_memWrite, hne]
  | _ => rfl

theorem onlyChanges_tick (s : State) : OnlyChanges s s.tick (fun c => c ∈ [.delay, .sound, .events]) := by
  intro c hc
  rw [tick_eq]
  cases c <;> first | rfl | exact absurd (by simp) hc

end Sys2Proof.Machine
end

