-- ==== Sys2Proof/Laws/Meanings.lean ====
section
/-! SUPPORT. What the loops of the memory and display instructions do, and that the execute phase always completes. -/

namespace Sys2Proof.Machine

/-! ### Fx55 and Fx65 -/

/-- The store loop changes memory alone. -/
theorem storeRegs_mem (s : State) (n : Nat) : s.storeRegs n = { s with mem := (s.storeRegs n).mem } := by
  induction n with
  | zero => rfl
  | succ n ih => rw [State.storeRegs, ih]; rfl

@[simp] theorem storeRegs_params (s : State) (n : Nat) : (s.storeRegs n).params = s.params := by rw [storeRegs_mem]

@[simp] theorem storeRegs_blockAddr (s : State) (n k : Nat) : (s.storeRegs n).blockAddr k = s.blockAddr k := by
  rw [storeRegs_mem]; rfl

@[simp] theorem storeRegs_getV (s : State) (n : Nat) (x : Reg) : (s.storeRegs n).getV x = s.getV x := by
  rw [storeRegs_mem]; rfl

theorem storeRegs_wf (s : State) (n : Nat) (h : Memory.wf s.params s.mem = true) :
    Memory.wf s.params (s.storeRegs n).mem = true := by
  induction n with
  | zero => exact h
  | succ n ih =>
    rw [State.storeRegs]
    simpa using memWrite_wf (s.storeRegs n) ((s.storeRegs n).blockAddr n) ((s.storeRegs n).getV (blockReg n)) (by simpa using ih)

/-- The store loop's frame: the first `n` bytes of the block at I. -/
theorem onlyChanges_storeRegs (s : State) (n : Nat) : OnlyChanges s (s.storeRegs n) (blockByte s n) := by
  induction n with
  | zero => exact OnlyChanges.same s _
  | succ n ih =>
    refine ih.comp (onlyChanges_memWrite _ _ _) ?_ ?_
    · rintro c ⟨k, hk, rfl⟩; exact ⟨k, by omega, rfl⟩
    · rintro c rfl; exact ⟨n, by omega, by simp⟩

/-- Each stored byte is the register of its place (44_index_memory.md R164). -/
theorem storeRegs_memRead (s : State) {n k : Nat} (hk : k < n) (hn : n ≤ 16) :
    (s.storeRegs n).memRead (s.blockAddr k) = s.getV (blockReg k) := by
  induction n with
  | zero => omega
  | succ n ih =>
    rw [State.storeRegs, memRead_memWrite]
    simp only [storeRegs_blockAddr, storeRegs_getV]
    by_cases h : k = n
    · simp [h]
    · rw [if_neg, ih (by omega) (by omega)]
      simp only [State.blockAddr, Config.memSize]; omega

/-- The load loop changes registers alone. -/
theorem loadRegs_v (s : State) (n : Nat) : s.loadRegs n = { s with v := (s.loadRegs n).v } := by
  induction n with
  | zero => rfl
  | succ n ih => rw [State.loadRegs, ih]; rfl

@[simp] theorem loadRegs_blockAddr (s : State) (n k : Nat) : (s.loadRegs n).blockAddr k = s.blockAddr k := by
  rw [loadRegs_v]; rfl

@[simp] theorem loadRegs_memRead (s : State) (n a : Nat) : (s.loadRegs n).memRead a = s.memRead a := by
  rw [loadRegs_v]; rfl

/-- Each register after the load loop (44_index_memory.md R165). -/
theorem loadRegs_getV (s : State) {n : Nat} (hn : n ≤ 16) (y : Reg) :
    (s.loadRegs n).getV y = if y.val < n then s.memRead (s.blockAddr y.val) else s.getV y := by
  induction n with
  | zero => simp [State.loadRegs]
  | succ n ih =>
    rw [State.loadRegs, getV_setV]
    simp only [loadRegs_blockAddr, loadRegs_memRead]
    have hv : (blockReg n).val = n := Nat.mod_eq_of_lt (by omega)
    by_cases h : y = blockReg n
    · have hy : y.val = n := by rw [h, hv]
      simp [h, hv]
    · have hy : y.val ≠ n := fun e => h (Fin.ext (by rw [hv, e]))
      rw [if_neg h, ih (by omega)]
      by_cases hl : y.val < n
      · simp [hl, Nat.lt_succ_of_lt hl]
      · simp [hl, show ¬ y.val < n + 1 by omega]

/-- The load loop's frame: the first `n` registers. -/
theorem onlyChanges_loadRegs (s : State) {n : Nat} (hn : n ≤ 16) :
    OnlyChanges s (s.loadRegs n) (fun c => ∃ k : Reg, k.val < n ∧ c = .reg k) := by
  intro c hc
  cases c with
  | reg y => simp only [Agree, loadRegs_getV s hn]; rw [if_neg (fun h => hc ⟨y, h, rfl⟩)]
  | _ => rw [loadRegs_v]; rfl

/-! ### Fx33 -/

/-- The digits' frame: three bytes at I. -/
theorem onlyChanges_storeDigits (s : State) (b : Byte) : OnlyChanges s (s.storeDigits b) (blockByte s 3) := by
  refine ((onlyChanges_memWrite s _ _).comp (onlyChanges_memWrite _ _ _) (r := blockByte s 3) ?_ ?_).comp
    (onlyChanges_memWrite _ _ _) (fun c h => h) ?_
  · rintro c rfl; exact ⟨0, by omega, rfl⟩
  · rintro c rfl; exact ⟨1, by omega, rfl⟩
  · rintro c rfl; exact ⟨2, by omega, rfl⟩

/-! ### Dxyn -/

theorem togglePixel_pixel (p : Plot) (py qy : Row) (px qx : Col) :
    Framebuffer.pixel (togglePixel p py px).fb qy qx =
      if qy = py ∧ qx = px then !(Framebuffer.pixel p.fb qy qx) else Framebuffer.pixel p.fb qy qx := by
  rw [togglePixel, pixel_setPixel]
  split
  · next h => rw [h.1, h.2]
  · rfl

/-- Two offsets below the width of the screen that land on one column are equal. -/
theorem spriteCol_inj (cx : Byte) {c d : Nat} (hc : c < 64) (hd : d < 64) (h : spriteCol cx c = spriteCol cx d) : c = d := by
  have := congrArg Fin.val h
  simp only [spriteCol, Fin.ofNat] at this
  omega

/-- Two offsets below the height of the screen that land on one row are equal. -/
theorem spriteRow_inj (cy : Byte) {r q : Nat} (hr : r < 32) (hq : q < 32) (h : spriteRow cy r = spriteRow cy q) : r = q := by
  have := congrArg Fin.val h
  simp only [spriteRow, Fin.ofNat] at this
  omega

/-- What `n` bits of a sprite row toggle. -/
def RowCovers (cx : Byte) (py : Row) (row : Byte) (n : Nat) (qy : Row) (qx : Col) : Prop :=
  ∃ c, c < n ∧ spriteBit row c = true ∧ qy = py ∧ qx = spriteCol cx c

/-- One sprite row: the covered pixels are toggled, and a covered lit pixel is a collision (41_display.md R111). -/
theorem plotBits_spec (p : Plot) (cx : Byte) (py : Row) (row : Byte) {n : Nat} (hn : n ≤ 8) :
    (∀ qy qx, RowCovers cx py row n qy qx →
      Framebuffer.pixel (plotBits p cx py row n).fb qy qx = !(Framebuffer.pixel p.fb qy qx)) ∧
    (∀ qy qx, ¬ RowCovers cx py row n qy qx →
      Framebuffer.pixel (plotBits p cx py row n).fb qy qx = Framebuffer.pixel p.fb qy qx) ∧
    ((plotBits p cx py row n).hit = true ↔
      p.hit = true ∨ ∃ qy qx, RowCovers cx py row n qy qx ∧ Framebuffer.pixel p.fb qy qx = true) := by
  induction n with
  | zero => simp [plotBits, RowCovers]
  | succ n ih =>
    obtain ⟨ih1, ih2, ih3⟩ := ih (by omega)
    have step (qy : Row) (qx : Col) : RowCovers cx py row (n + 1) qy qx ↔
        RowCovers cx py row n qy qx ∨ (spriteBit row n = true ∧ qy = py ∧ qx = spriteCol cx n) := by
      constructor
      · rintro ⟨c, hc, h⟩
        rcases Nat.lt_succ_iff_lt_or_eq.mp hc with hl | rfl
        · exact Or.inl ⟨c, hl, h⟩
        · exact Or.inr h
      · rintro (⟨c, hc, h⟩ | h)
        · exact ⟨c, by omega, h⟩
        · exact ⟨n, by omega, h⟩
    have fresh : ¬ RowCovers cx py row n py (spriteCol cx n) := by
      rintro ⟨c, hc, _, _, h⟩
      have := spriteCol_inj cx (by omega) (by omega) h
      omega
    rw [plotBits]
    by_cases hb : spriteBit row n = true
    · rw [if_pos hb]
      refine ⟨?_, ?_, ?_⟩
      · intro qy qx h
        rw [togglePixel_pixel]
        rcases (step qy qx).mp h with h | ⟨_, rfl, rfl⟩
        · rw [if_neg (by rintro ⟨rfl, rfl⟩; exact fresh h)]; exact ih1 qy qx h
        · rw [if_pos ⟨rfl, rfl⟩, ih2 _ _ fresh]
      · intro qy qx h
        rw [step, not_or] at h
        rw [togglePixel_pixel, if_neg (fun e => h.2 ⟨hb, e⟩), ih2 qy qx h.1]
      · simp only [togglePixel, Bool.or_eq_true, ih3, ih2 _ _ fresh, step, hb, true_and]
        constructor
        · rintro ((h | ⟨qy, qx, h, hp⟩) | h)
          · exact Or.inl h
          · exact Or.inr ⟨qy, qx, Or.inl h, hp⟩
          · exact Or.inr ⟨py, _, Or.inr ⟨rfl, rfl⟩, h⟩
        · rintro (h | ⟨qy, qx, h | ⟨rfl, rfl⟩, hp⟩)
          · exact Or.inl (Or.inl h)
          · exact Or.inl (Or.inr ⟨qy, qx, h, hp⟩)
          · exact Or.inr hp
    · rw [if_neg hb]
      simp only [step, hb]
      simpa using ⟨ih1, ih2, ih3⟩

/-- A whole sprite: the covered pixels are toggled, every other pixel is as before, and a covered lit pixel is a
collision (41_display.md R111). -/
theorem plotRows_spec (s : State) (cx cy : Byte) {n : Nat} (hn : n ≤ 15) :
    (∀ py px, SpriteCovers s cx cy n py px →
      Framebuffer.pixel (plotRows s cx cy n).fb py px = !(s.pixel py px)) ∧
    (∀ py px, ¬ SpriteCovers s cx cy n py px →
      Framebuffer.pixel (plotRows s cx cy n).fb py px = s.pixel py px) ∧
    ((plotRows s cx cy n).hit = true ↔ ∃ py px, SpriteCovers s cx cy n py px ∧ s.pixel py px = true) := by
  induction n with
  | zero => simp [plotRows, SpriteCovers, State.pixel]
  | succ n ih =>
    obtain ⟨ih1, ih2, ih3⟩ := ih (by omega)
    obtain ⟨b1, b2, b3⟩ := plotBits_spec (plotRows s cx cy n) cx (spriteRow cy n) (s.memRead (s.blockAddr n)) (le_refl 8)
    have step (py : Row) (px : Col) : SpriteCovers s cx cy (n + 1) py px ↔
        SpriteCovers s cx cy n py px ∨ RowCovers cx (spriteRow cy n) (s.memRead (s.blockAddr n)) 8 py px := by
      constructor
      · rintro ⟨r, c, hr, hc, h⟩
        rcases Nat.lt_succ_iff_lt_or_eq.mp hr with hl | rfl
        · exact Or.inl ⟨r, c, hl, hc, h⟩
        · exact Or.inr ⟨c, hc, h⟩
      · rintro (⟨r, c, hr, hc, h⟩ | ⟨c, hc, h⟩)
        · exact ⟨r, c, by omega, hc, h⟩
        · exact ⟨n, c, by omega, hc, h⟩
    have apart (py : Row) (px : Col) (h : RowCovers cx (spriteRow cy n) (s.memRead (s.blockAddr n)) 8 py px) :
        ¬ SpriteCovers s cx cy n py px := by
      rintro ⟨r, c, hr, _, _, e, _⟩
      obtain ⟨d, _, _, e', _⟩ := h
      have := spriteRow_inj cy (by omega) (by omega) (e.symm.trans e')
      omega
    rw [plotRows]
    refine ⟨?_, ?_, ?_⟩
    · intro py px h
      by_cases hr : RowCovers cx (spriteRow cy n) (s.memRead (s.blockAddr n)) 8 py px
      · rw [b1 py px hr, ih2 py px (apart py px hr)]
      · rw [b2 py px hr, ih1 py px (((step py px).mp h).resolve_right hr)]
    · intro py px h
      rw [step, not_or] at h
      rw [b2 py px h.2, ih2 py px h.1]
    · rw [b3, ih3]
      constructor
      · rintro (⟨py, px, h, hp⟩ | ⟨py, px, h, hp⟩)
        · exact ⟨py, px, (step py px).mpr (Or.inl h), hp⟩
        · exact ⟨py, px, (step py px).mpr (Or.inr h), by rwa [ih2 py px (apart py px h)] at hp⟩
      · rintro ⟨py, px, h, hp⟩
        by_cases hr : RowCovers cx (spriteRow cy n) (s.memRead (s.blockAddr n)) 8 py px
        · exact Or.inr ⟨py, px, hr, by rwa [ih2 py px (apart py px hr)]⟩
        · exact Or.inl ⟨py, px, ((step py px).mp h).resolve_right hr, hp⟩

/-! ### The execute phase completes -/

/-- No arm of `exec` refuses or faults: the execute phase answers a next state for every instruction and state. -/
theorem exec_completes (i : Instr) (s : State) : ∃ t, exec i s = .next t := by
  cases i with
  | ret => simp only [exec, execRet]; split <;> exact ⟨_, rfl⟩
  | call nnn => simp only [exec, execCall]; split <;> exact ⟨_, rfl⟩
  | ldVxK x => simp only [exec, execLdVxK]; split <;> exact ⟨_, rfl⟩
  | _ => exact ⟨_, rfl⟩

end Sys2Proof.Machine
end

