-- ==== Sys2Proof/Laws/PerInstr.lean ====
section
/-! SUPPORT. Statements about every instruction as a term, one lemma per constructor. RowPattern: the encoder's word of an
instruction matches its row of spec/opcode_table.json under the row's mask (30_encoding.md R73). -/

namespace Sys2Proof.Laws.RowPattern

/-- `match` and `mask` of the instruction's row of spec/opcode_table.json. -/
def row : Instr → Word × Word
  | .cls => (0x00E0#16, 0xFFFF#16)
  | .ret => (0x00EE#16, 0xFFFF#16)
  | .sys _ => (0x0000#16, 0xF000#16)
  | .jp _ => (0x1000#16, 0xF000#16)
  | .call _ => (0x2000#16, 0xF000#16)
  | .seImm _ _ => (0x3000#16, 0xF000#16)
  | .sneImm _ _ => (0x4000#16, 0xF000#16)
  | .seReg _ _ => (0x5000#16, 0xF00F#16)
  | .ldImm _ _ => (0x6000#16, 0xF000#16)
  | .addImm _ _ => (0x7000#16, 0xF000#16)
  | .ldReg _ _ => (0x8000#16, 0xF00F#16)
  | .or _ _ => (0x8001#16, 0xF00F#16)
  | .and _ _ => (0x8002#16, 0xF00F#16)
  | .xor _ _ => (0x8003#16, 0xF00F#16)
  | .addReg _ _ => (0x8004#16, 0xF00F#16)
  | .sub _ _ => (0x8005#16, 0xF00F#16)
  | .shr _ _ => (0x8006#16, 0xF00F#16)
  | .subn _ _ => (0x8007#16, 0xF00F#16)
  | .shl _ _ => (0x800E#16, 0xF00F#16)
  | .sneReg _ _ => (0x9000#16, 0xF00F#16)
  | .ldI _ => (0xA000#16, 0xF000#16)
  | .jpV0 _ => (0xB000#16, 0xF000#16)
  | .rnd _ _ => (0xC000#16, 0xF000#16)
  | .drw _ _ _ => (0xD000#16, 0xF000#16)
  | .skp _ => (0xE09E#16, 0xF0FF#16)
  | .sknp _ => (0xE0A1#16, 0xF0FF#16)
  | .ldVxDt _ => (0xF007#16, 0xF0FF#16)
  | .ldVxK _ => (0xF00A#16, 0xF0FF#16)
  | .ldDtVx _ => (0xF015#16, 0xF0FF#16)
  | .ldStVx _ => (0xF018#16, 0xF0FF#16)
  | .addI _ => (0xF01E#16, 0xF0FF#16)
  | .ldF _ => (0xF029#16, 0xF0FF#16)
  | .ldB _ => (0xF033#16, 0xF0FF#16)
  | .storeBlock _ => (0xF055#16, 0xF0FF#16)
  | .loadBlock _ => (0xF065#16, 0xF0FF#16)

/-- The word of `i` is one its row's pattern matches. -/
def Statement (i : Instr) : Prop := encode i &&& (row i).2 = (row i).1

theorem cls : Statement .cls := rfl
theorem ret : Statement .ret := rfl
theorem sys (nnn : Addr) : Statement (.sys nnn) := (and_F000 _).trans (by simp [encode, row]; rfl)
theorem jp (nnn : Addr) : Statement (.jp nnn) := (and_F000 _).trans (by simp [encode, row]; rfl)
theorem call (nnn : Addr) : Statement (.call nnn) := (and_F000 _).trans (by simp [encode, row]; rfl)
theorem seImm (x : Reg) (nn : Byte) : Statement (.seImm x nn) := (and_F000 _).trans (by simp [encode, row]; rfl)
theorem sneImm (x : Reg) (nn : Byte) : Statement (.sneImm x nn) := (and_F000 _).trans (by simp [encode, row]; rfl)
theorem seReg (x y : Reg) : Statement (.seReg x y) := (and_F00F _).trans (by simp [encode, row]; rfl)
theorem ldImm (x : Reg) (nn : Byte) : Statement (.ldImm x nn) := (and_F000 _).trans (by simp [encode, row]; rfl)
theorem addImm (x : Reg) (nn : Byte) : Statement (.addImm x nn) := (and_F000 _).trans (by simp [encode, row]; rfl)
theorem ldReg (x y : Reg) : Statement (.ldReg x y) := (and_F00F _).trans (by simp [encode, row]; rfl)
theorem or (x y : Reg) : Statement (.or x y) := (and_F00F _).trans (by simp [encode, row]; rfl)
theorem and (x y : Reg) : Statement (.and x y) := (and_F00F _).trans (by simp [encode, row]; rfl)
theorem xor (x y : Reg) : Statement (.xor x y) := (and_F00F _).trans (by simp [encode, row]; rfl)
theorem addReg (x y : Reg) : Statement (.addReg x y) := (and_F00F _).trans (by simp [encode, row]; rfl)
theorem sub (x y : Reg) : Statement (.sub x y) := (and_F00F _).trans (by simp [encode, row]; rfl)
theorem shr (x y : Reg) : Statement (.shr x y) := (and_F00F _).trans (by simp [encode, row]; rfl)
theorem subn (x y : Reg) : Statement (.subn x y) := (and_F00F _).trans (by simp [encode, row]; rfl)
theorem shl (x y : Reg) : Statement (.shl x y) := (and_F00F _).trans (by simp [encode, row]; rfl)
theorem sneReg (x y : Reg) : Statement (.sneReg x y) := (and_F00F _).trans (by simp [encode, row]; rfl)
theorem ldI (nnn : Addr) : Statement (.ldI nnn) := (and_F000 _).trans (by simp [encode, row]; rfl)
theorem jpV0 (nnn : Addr) : Statement (.jpV0 nnn) := (and_F000 _).trans (by simp [encode, row]; rfl)
theorem rnd (x : Reg) (nn : Byte) : Statement (.rnd x nn) := (and_F000 _).trans (by simp [encode, row]; rfl)
theorem drw (x y : Reg) (n : Fin 16) : Statement (.drw x y n) := (and_F000 _).trans (by simp [encode, row]; rfl)
theorem skp (x : Reg) : Statement (.skp x) := (and_F0FF _).trans (by simp [encode, row]; rfl)
theorem sknp (x : Reg) : Statement (.sknp x) := (and_F0FF _).trans (by simp [encode, row]; rfl)
theorem ldVxDt (x : Reg) : Statement (.ldVxDt x) := (and_F0FF _).trans (by simp [encode, row]; rfl)
theorem ldVxK (x : Reg) : Statement (.ldVxK x) := (and_F0FF _).trans (by simp [encode, row]; rfl)
theorem ldDtVx (x : Reg) : Statement (.ldDtVx x) := (and_F0FF _).trans (by simp [encode, row]; rfl)
theorem ldStVx (x : Reg) : Statement (.ldStVx x) := (and_F0FF _).trans (by simp [encode, row]; rfl)
theorem addI (x : Reg) : Statement (.addI x) := (and_F0FF _).trans (by simp [encode, row]; rfl)
theorem ldF (x : Reg) : Statement (.ldF x) := (and_F0FF _).trans (by simp [encode, row]; rfl)
theorem ldB (x : Reg) : Statement (.ldB x) := (and_F0FF _).trans (by simp [encode, row]; rfl)
theorem storeBlock (x : Reg) : Statement (.storeBlock x) := (and_F0FF _).trans (by simp [encode, row]; rfl)
theorem loadBlock (x : Reg) : Statement (.loadBlock x) := (and_F0FF _).trans (by simp [encode, row]; rfl)

end Sys2Proof.Laws.RowPattern
end

