-- ==== Sys2Proof/Laws/Step.lean ====
section
/-! SUPPORT. What a step, the end of a step and a program load can do, said once: the provers cite these in place of
unfolding `step`. -/

namespace Sys2Proof.Machine

/-! ### The cases of a step -/

theorem step_of_fault {s : State} {r : FaultRecord} (h : s.fault = some r) : step s = .next (haltedStep s) := by
  simp [step, h]

theorem step_of_unrecognized {s : State} {e : DecodeError} (h : s.fault = none) (hd : decode (fetchWord s) = .error e) :
    step s = .next (decodeFaultStep (beginStep s) s.pc (fetchWord s)) := by
  simp [step, h, hd]

theorem step_of_exec {s t : State} {i : Instr} (h : s.fault = none) (hd : decode (fetchWord s) = .ok i)
    (he : exec i (beginStep s) = .next t) : step s = .next (endStep t) := by
  simp [step, h, hd, he]

/-- Everything a step can do. -/
theorem step_cases {s t : State} (h : step s = .next t) :
    (∃ r, s.fault = some r ∧ t = haltedStep s) ∨
    (s.fault = none ∧ ∃ e, decode (fetchWord s) = .error e ∧ t = decodeFaultStep (beginStep s) s.pc (fetchWord s)) ∨
    (s.fault = none ∧ ∃ i u, decode (fetchWord s) = .ok i ∧ exec i (beginStep s) = .next u ∧ t = endStep u) := by
  rcases hf : s.fault with _ | r
  · rcases hd : decode (fetchWord s) with e | i
    · rw [step_of_unrecognized hf hd] at h; cases h; exact Or.inr (Or.inl ⟨rfl, e, rfl, rfl⟩)
    · obtain ⟨u, hu⟩ := exec_completes i (beginStep s)
      rw [step_of_exec hf hd hu] at h; cases h; exact Or.inr (Or.inr ⟨rfl, i, u, rfl, hu, rfl⟩)
  · rw [step_of_fault hf] at h; cases h; exact Or.inl ⟨r, rfl, rfl⟩

theorem endStep_cases (u : State) : (u.fault ≠ none ∧ endStep u = { u with outcome := some .faulted }) ∨
    (u.fault = none ∧ endStep u = completeStep u) := by
  rcases h : u.fault with _ | r
  · exact Or.inr ⟨rfl, by simp [endStep, h]⟩
  · exact Or.inl ⟨by simp, by simp [endStep, h]⟩

/-- The timer phase and the outcome change the timers, the events and the outcome alone. -/
theorem onlyChanges_completeStep (s : State) :
    OnlyChanges s (completeStep s) (fun c => c ∈ [.delay, .sound, .events, .outcome]) := by
  have h : OnlyChanges s (if s.params.tickInStep then s.tick else s) (fun c => c ∈ [.delay, .sound, .events]) := by
    split
    · exact onlyChanges_tick s
    · exact OnlyChanges.same s _
  intro c hc
  refine (h c (fun q => hc ?_)).trans' ?_
  · simp at q ⊢; tauto
  · cases c <;> first | rfl | exact absurd (by simp) hc

/-- The fields the timer phase leaves, for `rw`. -/
theorem completeStep_keeps (s : State) : (completeStep s).mem = s.mem ∧ (completeStep s).params = s.params ∧
    (completeStep s).fault = s.fault ∧ (completeStep s).iReg = s.iReg ∧ (completeStep s).stack = s.stack ∧
    (completeStep s).pc = s.pc ∧ (completeStep s).key = s.key ∧ (completeStep s).dirty = s.dirty ∧
    (completeStep s).v = s.v ∧ (completeStep s).fb = s.fb := by
  simp only [completeStep]; split
  · rw [tick_eq]; exact ⟨rfl, rfl, rfl, rfl, rfl, rfl, rfl, rfl, rfl, rfl⟩
  · exact ⟨rfl, rfl, rfl, rfl, rfl, rfl, rfl, rfl, rfl, rfl⟩

/-! ### The execute phase -/

/-- An instruction leaves the fault status and the events, or raises a hard fault of its own and does nothing else. -/
theorem exec_fault_cases {i : Instr} {s t : State} (h : exec i s = .next t) :
   (t.fault = s.fault ∧ t.events = s.events) ∨
   (∃ k, t = s.raiseFault k (encode i) ∧
      ((k = .stackOverflow ∧ (∃ nnn, i = .call nnn) ∧ s.stack.length = s.params.stackDepth) ∨
       (k = .stackUnderflow ∧ i = .ret ∧ s.stack = []) ∨
       (k = .keyIndex ∧ ∃ x, (i = .skp x ∨ i = .sknp x) ∧ 15 < (s.getV x).toNat))) := by
  have sk : ∀ (b : Bool), (s.skipIf b).fault = s.fault ∧ (s.skipIf b).events = s.events := by
    intro b; cases b <;> simp [State.skipIf, State.skip]
  have ky : ∀ (x : Reg) want w t, s.skipOnKey (s.getV x) want w = t → (t.fault = s.fault ∧ t.events = s.events) ∨ (t = s.raiseFault .keyIndex w ∧ 15 < (s.getV x).toNat) := by
    intro x want w t ht
    by_cases hb : (s.getV x).toNat < 16
    · rw [State.skipOnKey, keyAt_of_lt s hb] at ht; subst ht; exact Or.inl (sk _)
    · rw [State.skipOnKey, keyAt_of_ge s (by omega)] at ht; exact Or.inr ⟨ht.symm, by omega⟩
  cases i
  case call nnn =>
    simp only [exec, execCall] at h
    split at h
    · next hf => cases h; exact Or.inr ⟨_, rfl, Or.inl ⟨rfl, ⟨nnn, rfl⟩, (stackFull_iff s).mp hf⟩⟩
    · cases h; exact Or.inl ⟨rfl, rfl⟩
  case ret =>
    simp only [exec, execRet] at h
    split at h
    · next hf => cases h; exact Or.inr ⟨_, rfl, Or.inr (Or.inl ⟨rfl, rfl, (pop_none s).mp hf⟩)⟩
    · next a u hp =>
      cases h
      left
      unfold State.pop at hp; split at hp
      · cases hp
      · cases hp; exact ⟨rfl, rfl⟩
  case skp x =>
    simp only [exec, execSkp, Host.Outcome.next.injEq] at h
    rcases ky x _ _ _ h with h | ⟨h, hb⟩
    · exact Or.inl h
    · exact Or.inr ⟨_, h, Or.inr (Or.inr ⟨rfl, x, Or.inl rfl, hb⟩)⟩
  case sknp x =>
    simp only [exec, execSknp, Host.Outcome.next.injEq] at h
    rcases ky x _ _ _ h with h | ⟨h, hb⟩
    · exact Or.inl h
    · exact Or.inr ⟨_, h, Or.inr (Or.inr ⟨rfl, x, Or.inr rfl, hb⟩)⟩
  case ldVxK x =>
    simp only [exec, execLdVxK] at h
    split at h <;> (cases h; exact Or.inl ⟨rfl, rfl⟩)
  case seImm x nn => cases h; exact Or.inl (sk _)
  case sneImm x nn => cases h; exact Or.inl (sk _)
  case seReg x nn => cases h; exact Or.inl (sk _)
  case sneReg x nn => cases h; exact Or.inl (sk _)
  case storeBlock x => cases h; left; simp only [State.advanceI, setI_fault, setI_events]; rw [storeRegs_mem]; exact ⟨rfl, rfl⟩
  case loadBlock x => cases h; left; simp only [State.advanceI, setI_fault, setI_events]; rw [loadRegs_v]; exact ⟨rfl, rfl⟩
  all_goals (cases h; exact Or.inl ⟨rfl, rfl⟩)

theorem storeDigits_wf (s : State) (b : Byte) (h : Memory.wf s.params s.mem = true) :
    Memory.wf (s.storeDigits b).params (s.storeDigits b).mem = true :=
  memWrite_wf _ _ _ (memWrite_wf _ _ _ (memWrite_wf _ _ _ h))

/-- Every instruction keeps the canonical form of memory. -/
theorem exec_keeps_wf {i : Instr} {s t : State} (h : exec i s = .next t) (hw : Memory.wf s.params s.mem = true) : Memory.wf t.params t.mem = true := by
  have ky : ∀ (x : Reg) want w, Memory.wf (s.skipOnKey (s.getV x) want w).params (s.skipOnKey (s.getV x) want w).mem = true := by
    intro x want w; unfold State.skipOnKey; split
    · exact hw
    · simp only [State.skipIf]; split <;> exact hw
  have sk : ∀ b, Memory.wf (s.skipIf b).params (s.skipIf b).mem = true := by intro b; cases b <;> exact hw
  cases i
  case storeBlock x =>
    cases h; show Memory.wf (s.storeRegs (blockCount x)).params (s.storeRegs (blockCount x)).mem = true
    rw [storeRegs_params]; exact storeRegs_wf s _ hw
  case loadBlock x =>
    cases h; show Memory.wf (s.loadRegs (blockCount x)).params (s.loadRegs (blockCount x)).mem = true
    rw [loadRegs_v]; exact hw
  case ldB x =>
    cases h
    have h1 := memWrite_wf s (s.blockAddr 0) (hundredsDigit (s.getV x)) hw
    exact storeDigits_wf s _ hw
  case skp x => cases h; exact ky _ _ _
  case sknp x => cases h; exact ky _ _ _
  case seImm => cases h; exact sk _
  case sneImm => cases h; exact sk _
  case seReg => cases h; exact sk _
  case sneReg => cases h; exact sk _
  case call =>
    simp only [exec, execCall] at h
    split at h <;> (cases h; exact hw)
  case ret =>
    simp only [exec, execRet] at h
    split at h
    · cases h; exact hw
    · next hp => cases h; unfold State.pop at hp; split at hp <;> cases hp; exact hw
  case ldVxK =>
    simp only [exec, execLdVxK] at h
    split at h <;> (cases h; exact hw)
  all_goals (cases h; exact hw)

/-! ### Program load -/

/-- A copy that fits below the top of memory writes each byte in its place and nothing else, and keeps the canonical
form. -/
theorem copyBytes_spec (bytes : List Byte) : ∀ (s : State) (a : Nat), a + bytes.length ≤ 4096 →
   (∀ i, (h : i < bytes.length) → (s.copyBytes a bytes).memRead (a + i) = bytes[i]) ∧
   OnlyChanges s (s.copyBytes a bytes) (fun c => ∃ i, i < bytes.length ∧ c = byteAt (a + i)) ∧
   s.copyBytes a bytes = { s with mem := (s.copyBytes a bytes).mem } ∧
   (Memory.wf s.params s.mem = true → Memory.wf s.params (s.copyBytes a bytes).mem = true) := by
  induction bytes with
  | nil => intro s a _; exact ⟨fun i h => absurd h (by simp), OnlyChanges.same _ _, rfl, id⟩
  | cons b bs ih =>
    intro s a ha
    simp at ha
    obtain ⟨h1, h2, h3, h4⟩ := ih (s.memWrite a b) (a + 1) (by omega)
    rw [State.copyBytes]
    refine ⟨?_, ?_, ?_, ?_⟩
    · intro i hi
      rcases i with _ | i
      · have := h2 (byteAt a) (by
          rintro ⟨j, hj, e⟩
          simp only [byteAt, Component.byte.injEq, Fin.ext_iff, Fin.ofNat] at e; omega)
        simp only [Agree, byteAt, Fin.ofNat] at this
        rw [show (4096:Nat) = Config.memSize from rfl, memRead_mod, memRead_mod] at this
        simp [← this, memRead_memWrite]
      · have := h1 i (by simpa using hi)
        rw [show a + (i + 1) = a + 1 + i by omega]; simpa using this
    · refine (onlyChanges_memWrite s a b).comp h2 ?_ ?_
      · rintro c rfl; exact ⟨0, by simp, rfl⟩
      · rintro c ⟨i, hi, rfl⟩; exact ⟨i + 1, by simpa using hi, by rw [show a + (i+1) = a + 1 + i by omega]⟩
    · rw [h3]; rfl
    · intro hw; exact h4 (memWrite_wf s a b hw)

/-! ### Canonical memories -/

/-- Two canonical memories that read the same are the same list. -/
theorem memory_ext (p : Params) : ∀ (m n : Memory) (lo : Nat), Memory.wfFrom p lo m = true → Memory.wfFrom p lo n = true → (∀ a, a < 4096 → Memory.read p m a = Memory.read p n a) → m = n := by
  have low : ∀ (n : Memory) (lo a : Nat), Memory.wfFrom p lo n = true → a < lo → Memory.read p n a = resetByte p a := by
    intro n; induction n with
    | nil => intros; rfl
    | cons c n ih =>
      intro lo a hw ha
      obtain ⟨b, w⟩ := c; rw [wfFrom_cons] at hw
      rw [read_cons, if_neg (by omega)]; exact ih (b+1) a hw.2.2.2 (by omega)
  intro m
  induction m with
  | nil =>
    intro n lo _ hn h
    cases n with
    | nil => rfl
    | cons c n => obtain ⟨b, w⟩ := c; rw [wfFrom_cons] at hn; have := h b hn.2.1; simp [read_cons] at this; exact absurd this.symm hn.2.2.1
  | cons c m ih =>
    intro n lo hm hn h
    obtain ⟨a, v⟩ := c
    have hm0 := hm
    rw [wfFrom_cons] at hm
    cases n with
    | nil => have := h a hm.2.1; simp [read_cons] at this; exact absurd this hm.2.2.1
    | cons d n =>
      obtain ⟨b, w⟩ := d
      have hn0 := hn
      rw [wfFrom_cons] at hn
      have hab : a = b := by
        by_contra hne
        rcases Nat.lt_or_gt_of_ne hne with hl | hl
        · have := h a hm.2.1; rw [read_cons, if_pos rfl, read_cons, if_neg (by omega), low n (b+1) a hn.2.2.2 (by omega)] at this; exact hm.2.2.1 this
        · have := h b hn.2.1; rw [read_cons, if_neg (by omega), low m (a+1) b hm.2.2.2 (by omega), read_cons, if_pos rfl] at this; exact hn.2.2.1 this.symm
      subst hab
      have hv : v = w := by have := h a hm.2.1; simpa [read_cons] using this
      subst hv
      rw [ih n (a+1) hm.2.2.2 hn.2.2.2]
      intro x hx
      by_cases hxa : a = x
      · subst hxa; rw [low m (a+1) a hm.2.2.2 (by omega), low n (a+1) a hn.2.2.2 (by omega)]
      · have := h x hx; simpa [read_cons, hxa] using this

end Sys2Proof.Machine
end

