-- ==== Sys2Proof/Tests/Slice0.lean ====
section
/-! SUPPORT. The model's own tests. Expected values are taken from the vectors of 95_test_vectors.md (L1, L2) or worked
out by hand from the rules, never from a run of the model. Then one witness for the hypotheses of each obligation. -/

namespace Sys2Proof.Tests

open Sys2Proof.Machine

/-! ## WellFormed: the terms no word decodes to (30_encoding.md R74) -/

theorem test_wellFormed_refuses_sys_0E0 : (Instr.sys 0x0E0#12).wellFormed = false := by decide
theorem test_wellFormed_refuses_sys_0EE : (Instr.sys 0x0EE#12).wellFormed = false := by decide
theorem test_wellFormed_admits_sys_0E1 : (Instr.sys 0x0E1#12).wellFormed = true := by decide

/-! ## Decode: one word per constructor, written out from the patterns of 30_encoding.md R73. The first half of each says
that the word is one of its obligation's `Encodes` clause. -/

theorem test_decode_cls : 0x00E0#16 &&& 0xFFFF#16 = 0x00E0#16 ∧ decode 0x00E0#16 = .ok (.cls) := by decide
theorem test_decode_ret : 0x00EE#16 &&& 0xFFFF#16 = 0x00EE#16 ∧ decode 0x00EE#16 = .ok (.ret) := by decide
theorem test_decode_sys : 0x01E0#16 &&& 0xF000#16 = 0x0000#16 ∧ decode 0x01E0#16 = .ok (.sys 0x1E0#12) := by decide
theorem test_decode_jp : 0x1ABC#16 &&& 0xF000#16 = 0x1000#16 ∧ decode 0x1ABC#16 = .ok (.jp 0xABC#12) := by decide
theorem test_decode_call : 0x2345#16 &&& 0xF000#16 = 0x2000#16 ∧ decode 0x2345#16 = .ok (.call 0x345#12) := by decide
theorem test_decode_seImm : 0x3A42#16 &&& 0xF000#16 = 0x3000#16 ∧ decode 0x3A42#16 = .ok (.seImm 0xA 0x42#8) := by decide
theorem test_decode_sneImm : 0x4B17#16 &&& 0xF000#16 = 0x4000#16 ∧ decode 0x4B17#16 = .ok (.sneImm 0xB 0x17#8) := by decide
theorem test_decode_seReg : 0x51A0#16 &&& 0xF00F#16 = 0x5000#16 ∧ decode 0x51A0#16 = .ok (.seReg 1 0xA) := by decide
theorem test_decode_ldImm : 0x6F42#16 &&& 0xF000#16 = 0x6000#16 ∧ decode 0x6F42#16 = .ok (.ldImm 0xF 0x42#8) := by decide
theorem test_decode_addImm : 0x70FF#16 &&& 0xF000#16 = 0x7000#16 ∧ decode 0x70FF#16 = .ok (.addImm 0 0xFF#8) := by decide
theorem test_decode_ldReg : 0x8120#16 &&& 0xF00F#16 = 0x8000#16 ∧ decode 0x8120#16 = .ok (.ldReg 1 2) := by decide
theorem test_decode_or : 0x8121#16 &&& 0xF00F#16 = 0x8001#16 ∧ decode 0x8121#16 = .ok (.or 1 2) := by decide
theorem test_decode_and : 0x8122#16 &&& 0xF00F#16 = 0x8002#16 ∧ decode 0x8122#16 = .ok (.and 1 2) := by decide
theorem test_decode_xor : 0x8123#16 &&& 0xF00F#16 = 0x8003#16 ∧ decode 0x8123#16 = .ok (.xor 1 2) := by decide
theorem test_decode_addReg : 0x8124#16 &&& 0xF00F#16 = 0x8004#16 ∧ decode 0x8124#16 = .ok (.addReg 1 2) := by decide
theorem test_decode_sub : 0x8F25#16 &&& 0xF00F#16 = 0x8005#16 ∧ decode 0x8F25#16 = .ok (.sub 0xF 2) := by decide
theorem test_decode_shr : 0x8126#16 &&& 0xF00F#16 = 0x8006#16 ∧ decode 0x8126#16 = .ok (.shr 1 2) := by decide
theorem test_decode_subn : 0x81F7#16 &&& 0xF00F#16 = 0x8007#16 ∧ decode 0x81F7#16 = .ok (.subn 1 0xF) := by decide
theorem test_decode_shl : 0x812E#16 &&& 0xF00F#16 = 0x800E#16 ∧ decode 0x812E#16 = .ok (.shl 1 2) := by decide
theorem test_decode_sneReg : 0x9120#16 &&& 0xF00F#16 = 0x9000#16 ∧ decode 0x9120#16 = .ok (.sneReg 1 2) := by decide
theorem test_decode_ldI : 0xA123#16 &&& 0xF000#16 = 0xA000#16 ∧ decode 0xA123#16 = .ok (.ldI 0x123#12) := by decide
theorem test_decode_jpV0 : 0xBFED#16 &&& 0xF000#16 = 0xB000#16 ∧ decode 0xBFED#16 = .ok (.jpV0 0xFED#12) := by decide
theorem test_decode_rnd : 0xC10F#16 &&& 0xF000#16 = 0xC000#16 ∧ decode 0xC10F#16 = .ok (.rnd 1 0x0F#8) := by decide
theorem test_decode_drw : 0xD125#16 &&& 0xF000#16 = 0xD000#16 ∧ decode 0xD125#16 = .ok (.drw 1 2 5) := by decide
theorem test_decode_skp : 0xE19E#16 &&& 0xF0FF#16 = 0xE09E#16 ∧ decode 0xE19E#16 = .ok (.skp 1) := by decide
theorem test_decode_sknp : 0xEBA1#16 &&& 0xF0FF#16 = 0xE0A1#16 ∧ decode 0xEBA1#16 = .ok (.sknp 0xB) := by decide
theorem test_decode_ldVxDt : 0xF107#16 &&& 0xF0FF#16 = 0xF007#16 ∧ decode 0xF107#16 = .ok (.ldVxDt 1) := by decide
theorem test_decode_ldVxK : 0xF20A#16 &&& 0xF0FF#16 = 0xF00A#16 ∧ decode 0xF20A#16 = .ok (.ldVxK 2) := by decide
theorem test_decode_ldDtVx : 0xF315#16 &&& 0xF0FF#16 = 0xF015#16 ∧ decode 0xF315#16 = .ok (.ldDtVx 3) := by decide
theorem test_decode_ldStVx : 0xF418#16 &&& 0xF0FF#16 = 0xF018#16 ∧ decode 0xF418#16 = .ok (.ldStVx 4) := by decide
theorem test_decode_addI : 0xF51E#16 &&& 0xF0FF#16 = 0xF01E#16 ∧ decode 0xF51E#16 = .ok (.addI 5) := by decide
theorem test_decode_ldF : 0xF629#16 &&& 0xF0FF#16 = 0xF029#16 ∧ decode 0xF629#16 = .ok (.ldF 6) := by decide
theorem test_decode_ldB : 0xF733#16 &&& 0xF0FF#16 = 0xF033#16 ∧ decode 0xF733#16 = .ok (.ldB 7) := by decide
theorem test_decode_storeBlock : 0xF855#16 &&& 0xF0FF#16 = 0xF055#16 ∧ decode 0xF855#16 = .ok (.storeBlock 8) := by decide
theorem test_decode_loadBlock : 0xF965#16 &&& 0xF0FF#16 = 0xF065#16 ∧ decode 0xF965#16 = .ok (.loadBlock 9) := by decide
theorem test_decode_00E1_is_sys : decode 0x00E1#16 = .ok (.sys 0x0E1#12) := by decide
theorem test_decode_refuses_one_word_per_case :
    [0x5121#16, 0x912F#16, 0x8128#16, 0xE19F#16, 0xF1FF#16].all (fun w => decode w == .error (.unrecognized w)) = true := by decide
theorem test_decodeBytes_takes_two_and_refuses_one :
    decodeBytes [0x12#8, 0xAB#8, 0x00#8] = .ok (.jp 0x2AB#12, [0x00#8]) ∧ decodeBytes [0x12#8] = .error .truncated := by decide

/-! ## Steps -/

/-- The next state of a step, where it answers one. -/
def next? (s : State) : Option State :=
  match step s with
  | .next t => some t
  | .fault _ | .refused _ => none

/-- The next state of a step, else the state itself. -/
def after (s : State) : State := (next? s).getD s

theorem after_next {s : State} (h : (next? s).isSome = true) : step s = .next (after s) := by
  simp only [after, next?] at h ⊢
  cases hs : step s <;> simp_all

/-- The reset state with a word at its pc. -/
def at200 (w : Nat) : State := State.reset.withFetchWord 16 w

/-- What a test reads of the next state: `f` of it, none where the step stops. -/
def view {α : Type} (s : State) (f : State → α) : Option α := (next? s).map f

/-- L2.3. -/
theorem test_cls :
    view ((at200 0x00E0).setV vf 7#8) (fun t => (t.pixel 3 5, t.dirty, t.getV vf, t.pc)) =
      some (false, true, 7#8, 0x202#16) := by decide
/-- L2.4. -/
theorem test_ret :
    view ((at200 0x00EE).push 0x20A#16) (fun t => (t.pc, t.stack)) =
      some (0x20A#16, []) := by decide
/-- L2.4. -/
theorem test_ret_underflow :
    view ((at200 0x00EE).setDt 5#8) (fun t => (t.fault, t.pc, t.dt, t.outcome)) =
      some (some ⟨.stackUnderflow, 0x200#16, 0x00EE#16⟩, 0x202#16, 5#8, some .faulted) := by decide
/-- L2.2, L2.8. -/
theorem test_sys :
    view ((at200 0x01E0).setSt 1#8) (fun t => (t.pc, t.st, t.events)) =
      some (0x202#16, 0#8, [.tone]) := by decide
/-- L2.4. -/
theorem test_jp :
    view (at200 0x1ABC) (fun t => (t.pc, t.stack)) =
      some (0xABC#16, []) := by decide
/-- L2.4. -/
theorem test_call :
    view ((at200 0x2100).setDt 4#8) (fun t => (t.stack, t.pc, t.dt)) =
      some ([0x202#16], 0x100#16, 3#8) := by decide
/-- L2.4. -/
theorem test_call_overflow :
    view ({ at200 0x2300 with stack := List.replicate 16 0x202#16 }) (fun t => (t.fault, t.pc, t.stack.length)) =
      some (some ⟨.stackOverflow, 0x200#16, 0x2300#16⟩, 0x202#16, 16) := by decide
/-- L2.4. -/
theorem test_seImm_skips :
    view ((at200 0x3142).setV 1 0x42#8) (fun t => t.pc) =
      some 0x204#16 := by decide
/-- L2.4. -/
theorem test_seImm_stays :
    view ((at200 0x3143).setV 1 0x42#8) (fun t => t.pc) =
      some 0x202#16 := by decide
/-- L2.4. -/
theorem test_sneImm_stays :
    view ((at200 0x4142).setV 1 0x42#8) (fun t => t.pc) =
      some 0x202#16 := by decide
/-- L2.4. -/
theorem test_sneImm_skips :
    view ((at200 0x4100).setV 1 0x42#8) (fun t => t.pc) =
      some 0x204#16 := by decide
/-- L2.4. -/
theorem test_seReg_skips :
    view (((at200 0x5120).setV 1 7#8).setV 2 7#8) (fun t => t.pc) =
      some 0x204#16 := by decide
/-- L2.4. -/
theorem test_seReg_stays :
    view (((at200 0x5120).setV 1 7#8).setV 2 8#8) (fun t => t.pc) =
      some 0x202#16 := by decide
/-- L2.5. -/
theorem test_ldImm :
    view (at200 0x6F42) (fun t => (t.getV vf, t.getV 4)) =
      some (0x42#8, 0#8) := by decide
/-- L2.5. -/
theorem test_addImm_wraps :
    view ((at200 0x7101).setV 1 0xFF#8) (fun t => (t.getV 1, t.getV vf)) =
      some (0#8, 0#8) := by decide
/-- L1.2. -/
theorem test_ldReg :
    view ((at200 0x8120).setV 2 0xA5#8) (fun t => (t.getV 1, t.getV 2)) =
      some (0xA5#8, 0xA5#8) := by decide
/-- L2.5. -/
theorem test_or :
    view (((at200 0x8121).setV 1 0xF0#8).setV 2 0x0F#8) (fun t => t.getV 1) =
      some 0xFF#8 := by decide
/-- L2.5. -/
theorem test_and :
    view (((at200 0x8122).setV 1 0xF0#8).setV 2 0x3C#8) (fun t => t.getV 1) =
      some 0x30#8 := by decide
/-- L2.5. -/
theorem test_xor :
    view (((at200 0x8123).setV 1 0xF0#8).setV 2 0x3C#8) (fun t => t.getV 1) =
      some 0xCC#8 := by decide
/-- L2.5. -/
theorem test_addReg_carry :
    view (((at200 0x8124).setV 1 0xFF#8).setV 2 0xFF#8) (fun t => (t.getV 1, t.getV vf)) =
      some (0xFE#8, 1#8) := by decide
/-- L2.5. -/
theorem test_addReg_into_vf :
    view (((at200 0x8F14).setV vf 0xFF#8).setV 1 1#8) (fun t => t.getV vf) =
      some 1#8 := by decide
/-- L2.5. -/
theorem test_sub_into_vf :
    view (((at200 0x8F25).setV vf 0x10#8).setV 2 5#8) (fun t => t.getV vf) =
      some 0xFC#8 := by decide
/-- L2.5. -/
theorem test_sub_vf :
    view (((at200 0x81F5).setV 1 0x10#8).setV vf 5#8) (fun t => (t.getV 1, t.getV vf)) =
      some (0x0F#8, 1#8) := by decide
/-- L2.5. -/
theorem test_shr :
    view (((at200 0x8126).setV 1 5#8).setV 2 0xFF#8) (fun t => (t.getV 1, t.getV vf)) =
      some (2#8, 1#8) := by decide
/-- L2.5. -/
theorem test_shr_vf :
    view ((at200 0x8F06).setV vf 0xFF#8) (fun t => t.getV vf) =
      some 0#8 := by decide
/-- L2.5. -/
theorem test_subn_into_vf :
    view (((at200 0x8F27).setV vf 3#8).setV 2 0x10#8) (fun t => t.getV vf) =
      some 0x0F#8 := by decide
/-- L2.5. -/
theorem test_subn_vf :
    view (((at200 0x81F7).setV 1 3#8).setV vf 0x10#8) (fun t => (t.getV 1, t.getV vf)) =
      some (0xFE#8, 1#8) := by decide
/-- L2.5. -/
theorem test_shl :
    view ((at200 0x812E).setV 1 0x81#8) (fun t => (t.getV 1, t.getV vf)) =
      some (2#8, 1#8) := by decide
/-- L2.5. -/
theorem test_shl_vf :
    view ((at200 0x8F0E).setV vf 0x80#8) (fun t => t.getV vf) =
      some 2#8 := by decide
/-- L2.4. -/
theorem test_sneReg_skips :
    view (((at200 0x9120).setV 1 7#8).setV 2 8#8) (fun t => t.pc) =
      some 0x204#16 := by decide
/-- L2.4. -/
theorem test_sneReg_same :
    view (at200 0x9110) (fun t => t.pc) =
      some 0x202#16 := by decide
/-- L2.6. -/
theorem test_ldI :
    view (at200 0xA123) (fun t => t.iReg) =
      some 0x123#16 := by decide
/-- L2.4. -/
theorem test_jpV0_not_masked :
    view ((at200 0xBFFF).setV 0 0xFF#8) (fun t => t.pc) =
      some 0x10FE#16 := by decide
/-- L2.5: draw d, C1FF gives V1 = d; the draw is the free value of log 5. -/
theorem test_rnd_takes_the_draw : view (at200 0xC1FF) (fun t => t.getV 1) = some (Config.rng 0 &&& 0xFF#8) := by rfl
theorem test_rnd_counts_the_draw : view (at200 0xC100) (fun t => (t.rngDraws, t.pc)) = some (1, 0x202#16) := by decide

/-- L2.3. -/
theorem test_drw_wraps :
    view (((at200 0xD014).setV 0 62#8).setV 1 30#8) (fun t => (t.pixel 30 62, t.pixel 30 1, t.pixel 31 62, t.pixel 31 63, t.pixel 0 1, t.getV vf)) =
      some (true, true, true, false, true, 0#8) := by decide
/-- L2.3. -/
theorem test_drw_no_rows :
    view ((at200 0xD010).setV vf 3#8) (fun t => (t.pixel 0 0, t.getV vf, t.dirty)) =
      some (false, 0#8, true) := by decide
/-- L2.7. -/
theorem test_skp :
    view ({ (at200 0xE19E).setV 1 3#8 with key := State.reset.key.set 3 true }) (fun t => t.pc) =
      some 0x204#16 := by decide
/-- L2.7. -/
theorem test_skp_keyIndex :
    view (((at200 0xE19E).setV 1 16#8).setDt 5#8) (fun t => (t.fault, t.pc, t.dt)) =
      some (some ⟨.keyIndex, 0x200#16, 0xE19E#16⟩, 0x202#16, 5#8) := by decide
/-- L2.7. -/
theorem test_sknp_skips :
    view ((at200 0xE1A1).setV 1 3#8) (fun t => t.pc) =
      some 0x204#16 := by decide
/-- L2.7. -/
theorem test_sknp_stays :
    view ({ (at200 0xE1A1).setV 1 3#8 with key := State.reset.key.set 3 true }) (fun t => t.pc) =
      some 0x202#16 := by decide
/-- L2.8. -/
theorem test_ldVxDt :
    view ((at200 0xF107).setDt 3#8) (fun t => (t.getV 1, t.dt)) =
      some (3#8, 2#8) := by decide
/-- L2.7. -/
theorem test_ldVxK_waits :
    view ((at200 0xF10A).setV 1 9#8) (fun t => (t.pc, t.getV 1)) =
      some (0x200#16, 9#8) := by decide
/-- L1.5. -/
theorem test_ldVxK_takes_the_key :
    view ({ at200 0xF10A with key := State.reset.key.set 7 true }) (fun t => (t.pc, t.getV 1)) =
      some (0x202#16, 7#8) := by decide
/-- L2.8. -/
theorem test_ldDtVx :
    view ((at200 0xF115).setV 1 5#8) (fun t => t.dt) =
      some 4#8 := by decide
/-- L2.8. -/
theorem test_ldDtVx_zero :
    view (((at200 0xF115).setV 1 0#8).setDt 9#8) (fun t => t.dt) =
      some 0#8 := by decide
/-- L2.8. -/
theorem test_ldStVx_tone :
    view ((at200 0xF118).setV 1 1#8) (fun t => (t.st, t.events)) =
      some (0#8, [.tone]) := by decide
/-- L2.8. -/
theorem test_ldStVx_silent :
    view (((at200 0xF118).setV 1 0#8).setSt 4#8) (fun t => (t.st, t.events)) =
      some (0#8, []) := by decide
/-- L2.6. -/
theorem test_addI_wraps :
    view (((at200 0xF11E).setI 0xF80).setV 1 0xFF#8) (fun t => (t.iReg, t.getV vf)) =
      some (0x07F#16, 0#8) := by decide
/-- L2.6. -/
theorem test_ldF_whole_byte :
    view ((at200 0xF129).setV 1 0xFF#8) (fun t => t.iReg) =
      some 0x4FB#16 := by decide
/-- L2.6. -/
theorem test_ldB :
    view (((at200 0xF133).setI 0x300).setV 1 254#8) (fun t => (t.memRead 0x300, t.memRead 0x301, t.memRead 0x302, t.iReg)) =
      some (2#8, 5#8, 4#8, 0x300#16) := by decide
/-- L2.6. -/
theorem test_ldB_wraps :
    view (((at200 0xF033).setI 0xFFF).setV 0 254#8) (fun t => (t.memRead 0xFFF, t.memRead 0, t.memRead 1)) =
      some (2#8, 5#8, 4#8) := by decide
/-- L2.6. -/
theorem test_storeBlock_wraps :
    view ((((((at200 0xF355).setI 0xFFE).setV 0 1#8).setV 1 2#8).setV 2 3#8).setV 3 4#8) (fun t => (t.memRead 0xFFE, t.memRead 0xFFF, t.memRead 0, t.memRead 1, t.iReg)) =
      some (1#8, 2#8, 3#8, 4#8, 0x002#16) := by decide
/-- L2.6. -/
theorem test_loadBlock_font :
    view (at200 0xFF65) (fun t => (t.getV 0, t.getV 4, t.getV 5, t.getV vf, t.iReg)) =
      some (0xF0#8, 0xF0#8, 0x20#8, 0xF0#8, 0x010#16) := by decide
/-- L2.1. -/
theorem test_fetch_wraps :
    view (((({ State.reset with pc := 0xFFF#16 } : State).memWrite 0xFFF 0x6A#8).memWrite 0 0x12#8)) (fun t => (t.getV 0xA, t.pc)) =
      some (0x12#8, 0x1001#16) := by decide
/-- L2.2. -/
theorem test_decode_fault :
    view (((at200 0x5121).setDt 2#8).setSt 1#8) (fun t => (t.pc, t.dt, t.events, t.outcome)) =
      some (0x202#16, 1#8, [.decodeFault 0x200#16 0x5121#16, .tone], some .ran) := by decide
/-- L2.9. -/
theorem test_halted :
    view ({ (at200 0x6001).setDt 5#8 with fault := some ⟨.stackUnderflow, 0x202#16, 0x00EE#16⟩ }) (fun t => (t.pc, t.dt, t.getV 0, t.outcome)) =
      some (0x200#16, 5#8, 0#8, some .halted) := by decide

/-! ## Host calls -/

/-- L2.10. -/
theorem test_loadProgram_overwrites :
    (let t := (hostCall (.loadProgram [0x33#8]) (hostCall (.loadProgram [0x11#8, 0x11#8, 0x22#8]) State.reset).2).2
     [t.memRead 0x200, t.memRead 0x201, t.memRead 0x202, t.memRead 0x203]) = [0x33#8, 0x11#8, 0x22#8, 0#8] := by decide
/-- L2.10. -/
theorem test_loadProgram_refuses_3585 (bytes : List Byte) (h : bytes.length = 3585) :
    hostCall (.loadProgram bytes) State.reset = (.loadError, State.reset) :=
  if_pos (by rw [h]; decide)
/-- L2.11. -/
theorem test_setKey : (hostCall (.setKey 0xF true) State.reset).2.keyDown 0xF = true ∧
    hostCall (.setKey 16 true) State.reset = (.refused, State.reset) := by decide
/-- L2.8: with TICK_IN_STEP false, F115 leaves DT = 5 and a host tick gives 4. -/
theorem test_host_tick :
    (let s := { (at200 0xF115).setV 1 5#8 with params := { defaultParams with tickInStep := false } }
     ((after s).dt, (hostCall .tick (after s)).2.dt)) = (5#8, 4#8) := by decide

/-! ## Witnesses: for each obligation with hypotheses, a state and operands that meet them together, each clause at the
boundary of its range -/

/-- A core halted by the return at 0x200. -/
def halted : State := after (at200 0x00EE)

/-- The core with the ticks left to the host. -/
def hostTicked (s : State) : State := { s with params := { defaultParams with tickInStep := false } }

/-- `n` entries on the stack. -/
def deep (s : State) (n : Nat) : State := { s with stack := List.replicate n 0x202#16 }

/-- Key `k` alone held down. -/
def holding (s : State) (k : Key) : State := { s with key := s.key.set k true }

theorem witness_ResetMeetsTheInvariant : 1 ≤ ({ defaultParams with stackDepth := 1 } : Params).stackDepth := by decide

theorem inv_running : Inv (deep (at200 0x2300) 16) where
  memCanonical := by decide
  indexBelow := by decide
  stackBound := by decide
  depthPositive := by decide
  eventsBound := by decide
  outcomeFits := by decide
  faultAddr := by intro r h; cases h
  faultWord := by intro r h; cases h

theorem inv_halted : Inv halted where
  memCanonical := by decide
  indexBelow := by decide
  stackBound := by decide
  depthPositive := by decide
  eventsBound := by decide
  outcomeFits := by decide
  faultAddr := by intro r h; have e : halted.fault = some ⟨.stackUnderflow, 0x200#16, 0x00EE#16⟩ := by decide
                  rw [e] at h; cases h; decide
  faultWord := by intro r h; have e : halted.fault = some ⟨.stackUnderflow, 0x200#16, 0x00EE#16⟩ := by decide
                  rw [e] at h; cases h; rfl

/-- A running core with the stack full and a halted one; each steps. -/
theorem witness_EveryStepKeepsTheInvariant :
    (∃ s t, Inv s ∧ step s = .next t ∧ t.fault ≠ none) ∧ (∃ s t, Inv s ∧ step s = .next t ∧ s.fault ≠ none) :=
  ⟨⟨_, _, inv_running, after_next (by decide), by decide⟩, ⟨_, _, inv_halted, after_next (by decide), by decide⟩⟩

theorem witness_EveryHostCallKeepsTheInvariant : Inv (deep (at200 0x2300) 16) ∧ Inv halted := ⟨inv_running, inv_halted⟩

/-- A reachable core that a loaded return has halted. -/
theorem witness_ReachableStatesMeetTheInvariant : ∃ s r, Reachable s ∧ s.fault = some r :=
  ⟨_, ⟨.stackUnderflow, 0x200#16, 0x00EE#16⟩,
    .step _ _ (.call (resetWith defaultParams) (.loadProgram [0x00#8, 0xEE#8]) (.reset defaultParams (by decide)))
      (after_next (by decide)), by decide⟩

/-- The same bytes written in two orders. -/
theorem witness_ComponentsDetermineTheState :
    ∃ s t : State, Memory.wf s.params s.mem = true ∧ Memory.wf t.params t.mem = true ∧ s.mem ≠ [] ∧ ∀ c, Agree s t c :=
  ⟨(State.reset.memWrite 0x301 2#8).memWrite 0x300 1#8, (State.reset.memWrite 0x300 1#8).memWrite 0x301 2#8, by decide,
    by decide, by decide, by
      have h : (State.reset.memWrite 0x301 2#8).memWrite 0x300 1#8 = (State.reset.memWrite 0x300 1#8).memWrite 0x301 2#8 := by
        decide
      rw [h]; exact Agree.rfl' _⟩

theorem witness_DecodeOfEncodeIsTheInstruction :
    (Instr.sys 0x0E1#12).wellFormed = true ∧ (Instr.drw 0xF 0xF 15).wellFormed = true ∧ Instr.cls.wellFormed = true := by decide

/-- The unused y of SHR, and a DRW of no rows. -/
theorem witness_EncodeOfDecodeIsTheWord : decode 0x8FF6#16 = .ok (.shr 0xF 0xF) ∧ decode 0xD120#16 = .ok (.drw 1 2 0) := by
  decide

theorem witness_FetchIsBigEndianAndWraps :
    ∃ s : State, s.pc.toNat % 4096 = 0xFFF ∧ s.pc = 0xFFFF#16 := ⟨State.reset.setPc 0xFFFF#16, by decide, rfl⟩

/-- A step that completes, one that does not tick, and one that raises a hard fault. -/
theorem witness_StepRunsTheDecodedInstruction :
    (∃ s t i, s.fault = none ∧ decode (fetchWord s) = .ok i ∧ exec i { s with pc := s.pc + 2#16, events := [] } = .next t ∧
      t.fault = none ∧ t.params.tickInStep = true) ∧
    (∃ s t i, s.fault = none ∧ decode (fetchWord s) = .ok i ∧ exec i { s with pc := s.pc + 2#16, events := [] } = .next t ∧
      t.fault = none ∧ t.params.tickInStep = false) ∧
    (∃ s t i, s.fault = none ∧ decode (fetchWord s) = .ok i ∧ exec i { s with pc := s.pc + 2#16, events := [] } = .next t ∧
      t.fault ≠ none) :=
  ⟨⟨at200 0x6142, _, .ldImm 1 0x42#8, rfl, by decide, rfl, rfl, rfl⟩,
   ⟨hostTicked (at200 0x6142), _, .ldImm 1 0x42#8, rfl, by decide, rfl, rfl, rfl⟩,
   ⟨at200 0x00EE, _, .ret, rfl, by decide, rfl, by decide⟩⟩

theorem witness_UnrecognizedWordOnlyAdvances :
    (∃ s e, s.fault = none ∧ decode (fetchWord s) = .error e ∧ s.params.tickInStep = true ∧ s.st = 1#8) ∧
    (∃ s e, s.fault = none ∧ decode (fetchWord s) = .error e ∧ s.params.tickInStep = true ∧ s.st = 0#8) ∧
    (∃ s e, s.fault = none ∧ decode (fetchWord s) = .error e ∧ s.params.tickInStep = false) :=
  ⟨⟨(at200 0xF1FF).setSt 1#8, .unrecognized 0xF1FF#16, rfl, by decide, rfl, rfl⟩,
   ⟨at200 0xF1FF, .unrecognized 0xF1FF#16, rfl, by decide, rfl, rfl⟩,
   ⟨hostTicked (at200 0xF1FF), .unrecognized 0xF1FF#16, rfl, by decide, rfl⟩⟩

theorem witness_FaultedCoreStaysHalted : halted.fault ≠ none ∧ (hostCall .reset halted).2.fault ≠ halted.fault := by decide

/-- Each kind of hard fault. -/
theorem witness_HardFaultsArePrecise :
    (∃ s t r, s.fault = none ∧ step s = .next t ∧ t.fault = some r ∧ r.kind = .stackOverflow) ∧
    (∃ s t r, s.fault = none ∧ step s = .next t ∧ t.fault = some r ∧ r.kind = .stackUnderflow) ∧
    (∃ s t r, s.fault = none ∧ step s = .next t ∧ t.fault = some r ∧ r.kind = .keyIndex) :=
  ⟨⟨deep (at200 0x2300) 16, _, ⟨.stackOverflow, 0x200#16, 0x2300#16⟩, rfl, after_next (by decide), by decide, rfl⟩,
   ⟨at200 0x00EE, _, ⟨.stackUnderflow, 0x200#16, 0x00EE#16⟩, rfl, after_next (by decide), by decide, rfl⟩,
   ⟨(at200 0xE1A1).setV 1 16#8, _, ⟨.keyIndex, 0x200#16, 0xE1A1#16⟩, rfl, after_next (by decide), by decide, rfl⟩⟩

/-- Each cause at its boundary: depth 15 and 16, an empty stack and one entry, Vx 15 and 16. -/
theorem witness_HardFaultsHaveExactlyTheListedCauses :
    [deep (at200 0x2300) 15, deep (at200 0x2300) 16, at200 0x00EE, deep (at200 0x00EE) 1, (at200 0xE19E).setV 1 15#8,
      (at200 0xE19E).setV 1 16#8].map (fun s => (s.fault, (next? s).isSome, (after s).fault.isSome)) =
    [(none, true, false), (none, true, true), (none, true, true), (none, true, false), (none, true, false),
      (none, true, true)] := by decide

/-- The three outcomes. -/
theorem witness_StepEventsAndOutcomeFit :
    (∃ s t, step s = .next t ∧ t.outcome = some .halted) ∧ (∃ s t, step s = .next t ∧ t.outcome = some .faulted) ∧
    (∃ s t, step s = .next t ∧ t.outcome = some .ran ∧ .tone ∈ t.events) :=
  ⟨⟨halted, _, after_next (by decide), by decide⟩, ⟨at200 0x00EE, _, after_next (by decide), by decide⟩,
   ⟨(at200 0x5121).setSt 1#8, _, after_next (by decide), by decide⟩⟩

/-- The block lies on the next word, also where the next pc is 0x1000 and where only the last pair of V0..VF does. -/
theorem witness_StoreIsSeenByTheNextFetch :
    (∃ s x k, s.fault = none ∧ decode (fetchWord s) = .ok (.storeBlock x) ∧ k + 1 ≤ x.val ∧
      (s.iReg.toNat + k) % 4096 = (s.pc + 2#16).toNat % 4096 ∧ s.pc = 0x200#16 ∧ k = 14) ∧
    (∃ s x k, s.fault = none ∧ decode (fetchWord s) = .ok (.storeBlock x) ∧ k + 1 ≤ x.val ∧
      (s.iReg.toNat + k) % 4096 = (s.pc + 2#16).toNat % 4096 ∧ s.pc = 0xFFE#16 ∧ k = 0) :=
  ⟨⟨(at200 0xFF55).setI 0x1F4, 0xF, 14, rfl, by decide, by decide, by decide, by decide, rfl⟩,
   ⟨(State.reset.setPc 0xFFE#16).withFetchWord 16 0xF155, 1, 0, rfl, by decide, by decide, by decide, by decide, rfl⟩⟩

/-- A sum of 255 and one of 256, and the destination VF. -/
theorem witness_AddRegistersSetsCarry :
    [((at200 0x8124).setV 1 0xFF#8).setV 2 0#8, ((at200 0x8124).setV 1 0xFF#8).setV 2 1#8].map
      (fun s => (after s).getV vf) = [0#8, 1#8] ∧ (1 : Reg) ≠ vf := by decide

/-- Equal operands and a difference of one, in the order of the clauses for x and y on and off VF. -/
theorem witness_SubtractWritesFlagFirst :
    (1 : Reg) ≠ vf ∧ (vf : Reg) = vf ∧
    [((at200 0x8125).setV 1 4#8).setV 2 4#8, ((at200 0x8125).setV 1 4#8).setV 2 5#8,
      ((at200 0x81F5).setV 1 4#8).setV vf 5#8, ((at200 0x8F25).setV vf 4#8).setV 2 5#8, (at200 0x8FF5).setV vf 7#8].map
      (fun s => ((after s).getV 1, (after s).getV vf)) =
    [(0#8, 1#8), (0xFF#8, 0#8), (4#8, 0#8), (0#8, 0xFB#8), (0#8, 0#8)] := by decide

theorem witness_SubtractReversedWritesFlagFirst :
    (1 : Reg) ≠ vf ∧ (vf : Reg) = vf ∧
    [((at200 0x8127).setV 1 4#8).setV 2 4#8, ((at200 0x8127).setV 1 5#8).setV 2 4#8,
      ((at200 0x81F7).setV 1 5#8).setV vf 4#8, ((at200 0x8F27).setV vf 5#8).setV 2 4#8, (at200 0x8FF7).setV vf 7#8].map
      (fun s => ((after s).getV 1, (after s).getV vf)) =
    [(0#8, 1#8), (0xFF#8, 0#8), (0xFB#8, 0#8), (0#8, 4#8), (0#8, 0#8)] := by decide

theorem witness_ShiftsMoveOneBitThroughVF :
    [(at200 0x8126).setV 1 0xFE#8, (at200 0x8F26).setV vf 0xFF#8, (at200 0x812E).setV 1 0x7F#8, (at200 0x8F2E).setV vf 0xFF#8].map
      (fun s => ((after s).getV 1, (after s).getV vf)) =
    [(0x7F#8, 0#8), (0#8, 0#8), (0xFE#8, 0#8), (0#8, 2#8)] := by decide

theorem witness_RandomByteIsMasked : ∃ nn : Byte, nn = 0#8 := ⟨0#8, rfl⟩

/-- A digit and a byte above it. -/
theorem witness_IndexInstructionsSetIAlone :
    [(at200 0xF129).setV 1 0x0F#8, (at200 0xF129).setV 1 0x10#8].map (fun s => (after s).iReg) = [0x04B#16, 0x050#16] := by decide

theorem witness_StoreBlockWritesV0ToVxAndAdvancesI : (0 : Reg) ≤ 0 ∧ (0xF : Reg) ≤ 0xF := by decide

theorem witness_LoadBlockReadsV0ToVxAndAdvancesI : (0 : Reg) ≤ 0 ∧ (0xE : Reg) ≤ 0xF := by decide

/-- The top-left pixel of glyph 0 is covered, the bottom-right one of the screen is not; the covered one lit, and unlit. -/
theorem witness_DrawTogglesExactlyTheCoveredPixels :
    (∃ s, SpriteCovers s 0#8 0#8 5 0 0 ∧ ¬ SpriteCovers s 0#8 0#8 0 31 63 ∧ s.pixel 0 0 = true) ∧
    (∃ s, SpriteCovers s 0#8 0#8 5 0 0 ∧ ¬ ∃ py px, SpriteCovers s 0#8 0#8 5 py px ∧ s.pixel py px = true) :=
  ⟨⟨State.reset.display (Framebuffer.setPixel Framebuffer.blank 0 0 true), ⟨0, 0, by decide, by decide, by decide, rfl, rfl⟩,
      fun ⟨_, _, h, _⟩ => Nat.not_lt_zero _ h, by decide⟩,
   ⟨State.reset, ⟨0, 0, by decide, by decide, by decide, rfl, rfl⟩, fun ⟨py, px, _, h⟩ => by
      simp [State.reset, State.pixel, Framebuffer.pixel, Vector.get_eq_getElem] at h⟩⟩

/-- Every pixel lit. -/
def allLit : State := State.reset.display (Vector.replicate 32 (Vector.replicate 64 true))

/-- Glyph 0 drawn twice at (V0, V1) of a blank screen; of a screen whose every pixel is lit, where the second draw's VF is 0
(log 35); and a sprite of no rows. -/
theorem witness_DrawTwiceRestoresTheScreen :
    (∃ s t u, exec (.drw 0 1 5) s = .next t ∧ exec (.drw 0 1 5) t = .next u ∧ t.getV 0 = s.getV 0 ∧ t.getV 1 = s.getV 1 ∧
      ∃ py px, SpriteCovers s (s.getV 0) (s.getV 1) 5 py px ∧ s.pixel py px = false) ∧
    (∃ s t u, exec (.drw 0 1 5) s = .next t ∧ exec (.drw 0 1 5) t = .next u ∧ t.getV 0 = s.getV 0 ∧ t.getV 1 = s.getV 1 ∧
      (∃ py px, SpriteCovers s (s.getV 0) (s.getV 1) 5 py px) ∧
      ¬ ∃ py px, SpriteCovers s (s.getV 0) (s.getV 1) 5 py px ∧ s.pixel py px = false) ∧
    (∃ s t u, exec (.drw 0 1 0) s = .next t ∧ exec (.drw 0 1 0) t = .next u ∧ t.getV 0 = s.getV 0 ∧ t.getV 1 = s.getV 1 ∧
      ¬ ∃ py px, SpriteCovers s (s.getV 0) (s.getV 1) 0 py px ∧ s.pixel py px = false) :=
  ⟨⟨State.reset, _, _, rfl, rfl, by decide, by decide, 0, 0, ⟨0, 0, by decide, by decide, by decide, by decide, by decide⟩, by decide⟩,
   ⟨allLit, _, _, rfl, rfl, by decide, by decide,
    ⟨0, 0, 0, 0, by decide, by decide, by decide, by decide, by decide⟩, fun ⟨py, px, _, h⟩ => by
      simp [allLit, State.display, State.pixel, Framebuffer.pixel, Vector.get_eq_getElem] at h⟩,
   ⟨State.reset, _, _, rfl, rfl, by decide, by decide, fun ⟨_, _, ⟨_, _, h, _⟩, _⟩ => Nat.not_lt_zero _ h⟩⟩

theorem witness_SysIsANoOperation :
    (0x00E1#16 &&& 0xF000#16 = 0x0000#16 ∧ 0x00E1#16 ≠ 0x00E0#16 ∧ 0x00E1#16 ≠ 0x00EE#16) ∧
    (0x0000#16 &&& 0xF000#16 = 0x0000#16 ∧ 0x0000#16 ≠ 0x00E0#16 ∧ 0x0000#16 ≠ 0x00EE#16) := by decide

theorem witness_JumpSetsPcToTheTarget :
    ∃ s : State, s.fault = none ∧ decode (fetchWord s) = .ok (.jp 0x200#12) ∧ s.pc.toNat = (0x200#12 : Addr).toNat :=
  ⟨at200 0x1200, rfl, by decide, by decide⟩

/-- One entry short of the capacity, and at it. -/
theorem witness_CallPushesOrOverflows :
    (∃ s : State, s.stack.length ≠ s.params.stackDepth ∧ s.stack.length + 1 = s.params.stackDepth) ∧
    (∃ s : State, s.stack.length = s.params.stackDepth) :=
  ⟨⟨deep State.reset 15, by decide, by decide⟩, ⟨deep State.reset 16, by decide⟩⟩

theorem witness_ReturnPopsOrUnderflows :
    (∃ s : State, ∃ a rest, s.stack = a :: rest) ∧ (∃ s : State, s.stack = []) :=
  ⟨⟨deep State.reset 1, 0x202#16, [], rfl⟩, ⟨State.reset, rfl⟩⟩

/-- A call to 0x210 with one free entry left, and the subroutine at its return. -/
theorem witness_ReturnUndoesCall :
    ∃ s t u nnn, s.fault = none ∧ decode (fetchWord s) = .ok (.call nnn) ∧ s.stack.length < s.params.stackDepth ∧
      step s = .next t ∧ u.fault = none ∧ u.stack = t.stack ∧ decode (fetchWord u) = .ok .ret :=
  ⟨deep (at200 0x2210) 15, _, (after (deep (at200 0x2210) 15)).withFetchWord 16 0x00EE, 0x210#12, rfl, by decide, by decide,
    after_next (by decide), by decide, by decide, by decide⟩

/-- Vx 15 with the key up and down, and Vx 16. -/
theorem witness_SkipsOnAKey :
    (∃ s : State, (s.getV 1).toNat = (15 : Key).val ∧ s.keyDown 15 = true) ∧
    (∃ s : State, (s.getV 1).toNat = (15 : Key).val ∧ s.keyDown 15 = false) ∧ (∃ s : State, 15 < (s.getV 1).toNat) :=
  ⟨⟨holding (State.reset.setV 1 15#8) 15, by decide, by decide⟩, ⟨State.reset.setV 1 15#8, by decide, by decide⟩,
   ⟨State.reset.setV 1 16#8, by decide⟩⟩

theorem witness_ReadDelayTimerBeforeTheTick :
    ∃ s : State, s.fault = none ∧ decode (fetchWord s) = .ok (.ldVxDt 1) ∧ s.params.tickInStep = true ∧ s.dt = 1#8 :=
  ⟨(at200 0xF107).setDt 1#8, rfl, by decide, rfl, rfl⟩

theorem witness_SetTimersThenTheTickCounts :
    (∃ s : State, s.fault = none ∧ s.params.tickInStep = true ∧ decode (fetchWord s) = .ok (.ldDtVx 1)) ∧
    (∃ s : State, s.fault = none ∧ s.params.tickInStep = true ∧ decode (fetchWord s) = .ok (.ldStVx 1) ∧ s.getV 1 = 1#8) :=
  ⟨⟨at200 0xF115, rfl, rfl, by decide⟩, ⟨(at200 0xF118).setV 1 1#8, rfl, rfl, by decide, by decide⟩⟩

/-- No key, one key, and two keys. -/
theorem witness_KeyWaitRepeatsOrStoresAPressedKey :
    (∃ s : State, s.fault = none ∧ decode (fetchWord s) = .ok (.ldVxK 1) ∧ ∀ k, s.keyDown k = false) ∧
    (∃ s : State, s.keyDown 0 = true ∧ s.pressedKeys = [0]) ∧
    (∃ s : State, s.keyDown 5 = true ∧ s.pressedKeys = [5, 15]) :=
  ⟨⟨at200 0xF10A, rfl, by decide, by decide⟩, ⟨holding State.reset 0, by decide, by decide⟩,
   ⟨holding (holding State.reset 5) 15, by decide, by decide⟩⟩

theorem witness_ExecWritesOnlyWhatTheTableLists : ∃ s t, exec (.storeBlock 0xF) s = .next t ∧ t.iReg = 0x000#16 :=
  ⟨State.reset.setI 0xFF0, _, rfl, by decide⟩

/-- Two states that differ in a register 8xy4 does not read and in a timer. -/
theorem witness_ExecDependsOnlyOnWhatTheTableLists :
    ∃ s s' t t', (∀ c, mayRead s (.addReg 1 2) c ∨ alwaysRead c → Agree s s' c) ∧ exec (.addReg 1 2) s = .next t ∧
      exec (.addReg 1 2) s' = .next t' ∧ mayWrite s (.addReg 1 2) (.reg 1) ∧ ¬ Agree s s' (.reg 3) ∧ ¬ Agree s s' .delay := by
  refine ⟨State.reset, (State.reset.setV 3 9#8).setDt 9#8, _, _, ?_, rfl, rfl, by simp [mayWrite], ?_, ?_⟩
  · rintro c (h | h)
    · simp only [mayRead, List.mem_cons, List.not_mem_nil, or_false] at h
      rcases h with rfl | rfl
      · show State.reset.getV 1 = ((State.reset.setV 3 9#8).setDt 9#8).getV 1; decide
      · show State.reset.getV 2 = ((State.reset.setV 3 9#8).setDt 9#8).getV 2; decide
    · simp only [alwaysRead, List.mem_cons, List.not_mem_nil, or_false] at h
      rcases h with rfl | rfl | rfl | rfl <;> rfl
  · show ¬ State.reset.getV 3 = ((State.reset.setV 3 9#8).setDt 9#8).getV 3; decide
  · show ¬ State.reset.dt = 9#8; decide

theorem witness_KeypadChangesOnlyByTheHost :
    (∃ t, step (holding (at200 0xF10A) 15) = .next t) ∧ (hostCall (.setKey 15 true) State.reset).2.key ≠ State.reset.key ∧
    (hostCall .reset (holding State.reset 0)).2.key ≠ (holding State.reset 0).key :=
  ⟨⟨_, after_next (by decide)⟩, by decide, by decide⟩

/-- A step of each clause: neither, a call below capacity, a return. -/
theorem witness_StackChangesOnlyByCallAndReturn :
    [at200 0x6142, deep (at200 0x2300) 15, deep (at200 0x00EE) 1].map (fun s => ((next? s).isSome, (after s).stack.length)) =
      [(true, 0), (true, 16), (true, 0)] := by decide

theorem witness_DirtyIsSetByDisplayAndClearedByTheHost :
    (∃ s t : State, step s = .next t ∧ s.fault = none ∧ decode (fetchWord s) = .ok .cls) ∧
    (∃ s t : State, step s = .next t ∧ s.fault = none ∧ decode (fetchWord s) = .ok (.drw 0 1 0)) ∧
    (∃ s t : State, step s = .next t ∧ s.fault = none ∧ decode (fetchWord s) = .ok (.jp 0x200#12) ∧ s.dirty = true) ∧
    (hostCall .consumeDirtyFrame (State.reset.display Framebuffer.blank)).2.dirty ≠
      (State.reset.display Framebuffer.blank).dirty :=
  ⟨⟨at200 0x00E0, _, after_next (by decide), rfl, by decide⟩, ⟨at200 0xD010, _, after_next (by decide), rfl, by decide⟩,
   ⟨(at200 0x1200).display Framebuffer.blank, _, after_next (by decide), rfl, by decide, rfl⟩, by decide⟩

theorem witness_MemoryChangesOnlyByStoresAndTheHost :
    (∃ s t a, step s = .next t ∧ t.memRead a ≠ s.memRead a ∧ a = 0xFFF) ∧
    (hostCall (.loadProgram [0x60#8]) State.reset).2.memRead 0x200 ≠ State.reset.memRead 0x200 ∧
    (hostCall .reset (at200 0x6142)).2.memRead 0x200 ≠ (at200 0x6142).memRead 0x200 :=
  ⟨⟨((at200 0xF055).setI 0xFFF).setV 0 9#8, _, 0xFFF, after_next (by decide), by decide, rfl⟩, by decide, by decide⟩

theorem witness_ParametersNeverChange : ∃ s t, step s = .next t ∧ s.params ≠ defaultParams :=
  ⟨hostTicked (at200 0x6142), _, after_next (by decide), by decide⟩

/-- 3584 and 3585 bytes, and the last byte of the longest program. -/
theorem witness_LoadProgramCopiesOrRejectsWhole :
    (∃ bytes : List Byte, bytes.length > 3584) ∧ (∃ bytes : List Byte, bytes.length ≤ 3584 ∧ 3583 < bytes.length) :=
  ⟨⟨List.replicate 3585 0xAB#8, by rw [List.length_replicate]; decide⟩,
   ⟨List.replicate 3584 0xAB#8, by rw [List.length_replicate]; decide⟩⟩

theorem witness_KeyCallsWriteAndReadOneKey : (∃ k, k < 16 ∧ k = 15) ∧ (∃ k, 15 < k ∧ k = 16) :=
  ⟨⟨15, by decide, rfl⟩, ⟨16, by decide, rfl⟩⟩

theorem witness_HostTickCountsOnlyOutsideSteps :
    (∃ s : State, s.params.tickInStep = true) ∧
    (∃ s : State, s.params.tickInStep = false ∧ s.fault = none ∧ s.st = 1#8) ∧
    (∃ s : State, s.params.tickInStep = false ∧ s.fault ≠ none) :=
  ⟨⟨State.reset, rfl⟩, ⟨(hostTicked State.reset).setSt 1#8, rfl, rfl, rfl⟩, ⟨hostTicked halted, rfl, by decide⟩⟩

end Sys2Proof.Tests
end

section
/-! The parameters of 00_scope.md R7 are fixed (log 1): each operation that is no single record update keeps them, then
the execute phase, the step and the host calls do. The primitive updates have their lemmas in Laws/State. -/

namespace Sys2Proof.Machine

variable (s : State)

/-! ### The shared operations -/

@[simp] theorem skipIf_params (b : Bool) : (s.skipIf b).params = s.params := by
  cases b <;> rfl

@[simp] theorem skipOnKey_params (b : Byte) (want : Bool) (w : Word) : (s.skipOnKey b want w).params = s.params := by
  unfold State.skipOnKey
  split
  · exact raiseFault_params s .keyIndex w
  · exact skipIf_params s _

theorem pop_params {a : Word} {u : State} (h : s.pop = some (a, u)) : u.params = s.params := by
  cases hs : s.stack with
  | nil => rw [(pop_none s).mpr hs] at h; cases h
  | cons b rest => rw [pop_some s hs] at h; cases h; rfl

@[simp] theorem loadRegs_params (n : Nat) : (s.loadRegs n).params = s.params := by
  rw [loadRegs_v]

@[simp] theorem tick_params : s.tick.params = s.params := by
  rw [tick_eq]

@[simp] theorem completeStep_params : (completeStep s).params = s.params :=
  (onlyChanges_completeStep s .params (by simp)).symm

@[simp] theorem endStep_params : (endStep s).params = s.params := by
  rcases endStep_cases s with ⟨-, h⟩ | ⟨-, h⟩
  · rw [h]
  · rw [h, completeStep_params]

@[simp] theorem decodeFaultStep_params (A w : Word) : (decodeFaultStep s A w).params = s.params :=
  completeStep_params _

@[simp] theorem haltedStep_params : (haltedStep s).params = s.params := rfl

/-! ### The step -/

variable {s}

/-- No instruction changes the parameters. -/
theorem exec_params {i : Instr} {t : State} (h : exec i s = .next t) : t.params = s.params := by
  cases i with
  | ret =>
    simp only [exec, execRet] at h
    split at h
    · cases h; rfl
    · next hp => cases h; rw [setPc_params, pop_params s hp]
  | call nnn =>
    simp only [exec, execCall] at h
    split at h <;> (cases h; rfl)
  | ldVxK x =>
    simp only [exec, execLdVxK] at h
    split at h <;> (cases h; rfl)
  | seImm | sneImm | seReg | sneReg => cases h; exact skipIf_params s _
  | skp | sknp => cases h; exact skipOnKey_params s ..
  | storeBlock => cases h; exact storeRegs_params s _
  | loadBlock => cases h; exact loadRegs_params s _
  | _ => cases h; rfl

theorem step_params {t : State} (h : step s = .next t) : t.params = s.params := by
  rcases step_cases h with ⟨_, -, rfl⟩ | ⟨-, _, -, rfl⟩ | ⟨-, i, u, -, hu, rfl⟩
  · exact haltedStep_params s
  · rw [decodeFaultStep_params, beginStep_params]
  · rw [endStep_params, exec_params hu, beginStep_params]

/-! ### The host calls -/

variable (s)

@[simp] theorem hostReset_params : s.hostReset.params = s.params := rfl

@[simp] theorem copyBytes_params (a : Nat) (bytes : List Byte) : (s.copyBytes a bytes).params = s.params := by
  induction bytes generalizing s a with
  | nil => rfl
  | cons b rest ih => rw [State.copyBytes, ih, memWrite_params]

@[simp] theorem freshTick_params : s.freshTick.params = s.params := by
  unfold State.freshTick
  split
  · rfl
  · rw [tick_params]

/-- No host call, the reset included, changes the parameters (logs 1, 22). -/
theorem hostCall_params (c : HostCall) : (hostCall c s).2.params = s.params := by
  cases c with
  | reset => exact hostReset_params s
  | loadProgram bytes =>
    simp only [hostCall, hostLoadProgram]
    split
    · rfl
    · exact copyBytes_params s _ bytes
  | setKey k pressed =>
    simp only [hostCall, hostSetKey]
    split <;> rfl
  | isKeyDown k =>
    simp only [hostCall, hostIsKeyDown]
    split <;> rfl
  | tick =>
    simp only [hostCall, hostTick]
    split
    · rfl
    · exact freshTick_params s
  | consumeDirtyFrame | readDirty | readFault => rfl

/-- Settles O56: every case of a step and every host call keeps the parameters. -/
theorem parametersNeverChange : Obligations.ParametersNeverChange :=
  ⟨fun _ _ h => step_params h, hostCall_params⟩

end Sys2Proof.Machine
end

section
/-! The frame of every instruction (10_state.md R35, column W). First the instructions that branch, each inverted once;
then the frame of every arm of `exec`, from the frames of the operations it is made of. -/

namespace Sys2Proof.Machine

variable {s t : State}

/-! ### The instructions that branch -/

/-- 00EE underflows on an empty stack, else it moves the top entry to the pc (42_flow.md R121). -/
theorem exec_ret_cases (h : exec .ret s = .next t) :
    (s.stack = [] ∧ t = s.raiseFault .stackUnderflow (encode .ret)) ∨
    (∃ a rest, s.stack = a :: rest ∧ t = ({ s with stack := rest }).setPc a) := by
  rcases hs : s.stack with _ | ⟨a, rest⟩
  · simp only [exec, execRet, (pop_none s).mpr hs] at h
    cases h; exact Or.inl ⟨rfl, rfl⟩
  · simp only [exec, execRet, pop_some s hs] at h
    cases h; exact Or.inr ⟨a, rest, rfl, rfl⟩

/-- 2nnn overflows at capacity, else it pushes the pc and jumps (42_flow.md R123). -/
theorem exec_call_cases {nnn : Addr} (h : exec (.call nnn) s = .next t) :
    (s.stack.length = s.params.stackDepth ∧ t = s.raiseFault .stackOverflow (encode (.call nnn))) ∨
    (s.stack.length ≠ s.params.stackDepth ∧ t = (s.push s.pc).setPc (targetOf nnn)) := by
  simp only [exec, execCall] at h
  split at h
  · next hf => cases h; exact Or.inl ⟨(stackFull_iff s).mp hf, rfl⟩
  · next hf => cases h; exact Or.inr ⟨fun e => hf ((stackFull_iff s).mpr e), rfl⟩

/-- Fx0A moves the pc back while no key is pressed, else it stores the key the draw takes (45_keys_timers.md R183). -/
theorem exec_ldVxK_cases {x : Reg} (h : exec (.ldVxK x) s = .next t) :
    (chooseKey s.keyDraws s.pressedKeys = none ∧ t = s.setPc (s.pc - 2#16)) ∨
    (∃ k, chooseKey s.keyDraws s.pressedKeys = some k ∧ t = s.countKeyDraw.setV x (keyByte k)) := by
  simp only [exec, execLdVxK] at h
  split at h
  · next hk => cases h; exact Or.inl ⟨hk, rfl⟩
  · next k hk => cases h; exact Or.inr ⟨k, hk, rfl⟩

/-- A skip on a key faults where there is no such key (45_keys_timers.md R186). -/
theorem skipOnKey_cases (s : State) (b : Byte) (want : Bool) (w : Word) :
    (16 ≤ b.toNat ∧ s.skipOnKey b want w = s.raiseFault .keyIndex w) ∨
    (∃ h : b.toNat < 16, s.skipOnKey b want w = s.skipIf (s.keyDown ⟨b.toNat, h⟩ == want)) := by
  by_cases hb : b.toNat < 16
  · exact Or.inr ⟨hb, by rw [State.skipOnKey, keyAt_of_lt s hb]⟩
  · exact Or.inl ⟨by omega, by rw [State.skipOnKey, keyAt_of_ge s (by omega)]⟩

/-! ### Frames of composed updates -/

theorem OnlyChanges.of_eq {d : Component} {may : Component → Prop} (h : OnlyChanges s t (fun c => c = d)) (hd : may d) :
    OnlyChanges s t may := h.mono fun _ hc => hc ▸ hd

theorem OnlyChanges.trans {u : State} {may : Component → Prop} (h : OnlyChanges s t may) (k : OnlyChanges t u may) :
    OnlyChanges s u may := h.comp k (fun _ hc => hc) (fun _ hc => hc)

theorem onlyChanges_setV_setV (s : State) (x y : Reg) (a b : Byte) {may : Component → Prop} (hx : may (.reg x))
    (hy : may (.reg y)) : OnlyChanges s ((s.setV x a).setV y b) may :=
  ((onlyChanges_setV s x a).of_eq hx).trans ((onlyChanges_setV _ y b).of_eq hy)

theorem onlyChanges_skipOnKey (s : State) (b : Byte) (want : Bool) (w : Word) :
    OnlyChanges s (s.skipOnKey b want w) (fun c => c ∈ [.pc, .fault, .events]) := by
  rcases skipOnKey_cases s b want w with ⟨-, h⟩ | ⟨_, h⟩
  · rw [h]
    exact (onlyChanges_raiseFault s .keyIndex w).mono (by rintro c (rfl | rfl) <;> simp)
  · rw [h]
    exact (onlyChanges_skipIf s _).of_eq (by simp)

theorem onlyChanges_setStack (s : State) (l : List Word) : OnlyChanges s { s with stack := l } (fun c => c = .stack) := by
  intro c hc
  cases c with
  | stack => exact absurd rfl hc
  | _ => rfl

theorem onlyChanges_ret (h : exec .ret s = .next t) : OnlyChanges s t (mayWrite s .ret) := by
  rcases exec_ret_cases h with ⟨-, rfl⟩ | ⟨a, rest, -, rfl⟩
  · exact (onlyChanges_raiseFault s _ _).mono (by rintro c (rfl | rfl) <;> simp [mayWrite])
  · exact ((onlyChanges_setStack s rest).of_eq (by simp [mayWrite])).trans
      ((onlyChanges_setPc _ a).of_eq (by simp [mayWrite]))

theorem onlyChanges_call {nnn : Addr} (h : exec (.call nnn) s = .next t) : OnlyChanges s t (mayWrite s (.call nnn)) := by
  rcases exec_call_cases h with ⟨-, rfl⟩ | ⟨-, rfl⟩
  · exact (onlyChanges_raiseFault s _ _).mono (by rintro c (rfl | rfl) <;> simp [mayWrite])
  · exact ((onlyChanges_push s _).of_eq (by simp [mayWrite])).trans
      ((onlyChanges_setPc _ _).of_eq (by simp [mayWrite]))

theorem onlyChanges_ldVxK {x : Reg} (h : exec (.ldVxK x) s = .next t) : OnlyChanges s t (mayWrite s (.ldVxK x)) := by
  rcases exec_ldVxK_cases h with ⟨-, rfl⟩ | ⟨k, -, rfl⟩
  · exact (onlyChanges_setPc s _).of_eq (by simp [mayWrite])
  · exact ((onlyChanges_countKeyDraw s).of_eq (by simp [mayWrite])).trans
      ((onlyChanges_setV _ x _).of_eq (by simp [mayWrite]))

theorem onlyChanges_drw (s : State) (x y : Reg) (n : Fin 16) (flag : Byte) (fb : Framebuffer) :
    OnlyChanges s ((s.setVF flag).display fb) (mayWrite s (.drw x y n)) := by
  refine ((onlyChanges_setV s vf flag).of_eq (by simp [mayWrite])).trans ((onlyChanges_display _ fb).mono ?_)
  rintro c (h | rfl)
  · exact Or.inl h
  · exact Or.inr (by simp)

theorem onlyChanges_storeBlock (s : State) (x : Reg) :
    OnlyChanges s ((s.storeRegs (blockCount x)).advanceI x) (mayWrite s (.storeBlock x)) :=
  (onlyChanges_storeRegs s (blockCount x)).comp (onlyChanges_setI _ _) (fun _ h => Or.inl h) (fun _ h => Or.inr h)

theorem onlyChanges_loadBlock (s : State) (x : Reg) :
    OnlyChanges s ((s.loadRegs (blockCount x)).advanceI x) (mayWrite s (.loadBlock x)) := by
  refine (onlyChanges_loadRegs s (by simp only [blockCount]; omega)).comp (onlyChanges_setI _ _) ?_ (fun _ h => Or.inr h)
  rintro c ⟨k, hk, rfl⟩
  exact Or.inl ⟨k, Fin.le_def.mpr (Nat.le_of_lt_succ hk), rfl⟩

/-! ### Every instruction -/

/-- Settles O50: each arm of `exec` is one of the updates framed above. -/
theorem execWritesOnlyWhatTheTableLists : Obligations.ExecWritesOnlyWhatTheTableLists := by
  intro i s t h
  cases i with
  | cls => cases h; exact onlyChanges_display s _
  | ret => exact onlyChanges_ret h
  | sys => cases h; exact OnlyChanges.same s _
  | jp | jpV0 => cases h; exact onlyChanges_setPc s _
  | call => exact onlyChanges_call h
  | seImm | sneImm | seReg | sneReg => cases h; exact onlyChanges_skipIf s _
  | ldImm x | addImm x | ldReg x | or x | and x | xor x | ldVxDt x => cases h; exact onlyChanges_setV s x _
  | addReg | sub | subn | shr | shl =>
    cases h; exact onlyChanges_setV_setV s _ _ _ _ (by simp [mayWrite]) (by simp [mayWrite])
  | ldI | addI | ldF => cases h; exact onlyChanges_setI s _
  | rnd x =>
    cases h
    exact ((onlyChanges_drawRandom s).of_eq (by simp [mayWrite])).trans
      ((onlyChanges_setV _ x _).of_eq (by simp [mayWrite]))
  | drw x y n => cases h; exact onlyChanges_drw s x y n _ _
  | skp | sknp => cases h; exact onlyChanges_skipOnKey s _ _ _
  | ldVxK => exact onlyChanges_ldVxK h
  | ldDtVx => cases h; exact onlyChanges_setDt s _
  | ldStVx => cases h; exact onlyChanges_setSt s _
  | ldB => cases h; exact onlyChanges_storeDigits s _
  | storeBlock x => cases h; exact onlyChanges_storeBlock s x
  | loadBlock x => cases h; exact onlyChanges_loadBlock s x

end Sys2Proof.Machine
end

section
/-! What an instruction writes depends on what it reads (10_state.md R35, column R). One lemma for each update: applied with
equal arguments to two states, it leaves them agreeing on what it wrote and on what they agreed on before. The instructions
are then compositions of these. -/

namespace Sys2Proof.Machine

variable {s s' t t' : State} {c : Component}

/-! ### Agreement through one update -/

theorem agree_byteAt (a : Nat) : Agree s s' (byteAt a) ↔ s.memRead a = s'.memRead a := by
  have h (u : State) : u.memRead (a % 4096) = u.memRead a := memRead_mod u a
  simp only [byteAt, Agree, Fin.ofNat, h]

theorem agree_setV {x : Reg} {b b' : Byte} (hb : b = b') (h : c = .reg x ∨ Agree s s' c) :
    Agree (s.setV x b) (s'.setV x b') c := by
  cases c with
  | reg y =>
    by_cases hy : y = x
    · simp [Agree, hy, hb]
    · simpa [Agree, getV_setV, hy] using h
  | _ => exact h.resolve_left nofun

theorem agree_setI {n n' : Nat} (hn : n = n') (h : c = .index ∨ Agree s s' c) : Agree (s.setI n) (s'.setI n') c := by
  cases c with
  | index => simp [Agree, hn]
  | _ => exact h.resolve_left nofun

theorem agree_setPc {a a' : Word} (ha : a = a') (h : c = .pc ∨ Agree s s' c) : Agree (s.setPc a) (s'.setPc a') c := by
  cases c with
  | pc => exact ha
  | _ => exact h.resolve_left nofun

theorem agree_skipIf {b b' : Bool} (hb : b = b') (hpc : s.pc = s'.pc) (h : c = .pc ∨ Agree s s' c) :
    Agree (s.skipIf b) (s'.skipIf b') c := by
  subst hb
  cases b with
  | true => exact agree_setPc (by rw [hpc]) h
  | false => exact h.elim (by rintro rfl; exact hpc) id

theorem agree_setStack {l l' : List Word} (hl : l = l') (h : c = .stack ∨ Agree s s' c) :
    Agree { s with stack := l } { s' with stack := l' } c := by
  cases c with
  | stack => exact hl
  | _ => exact h.resolve_left nofun

theorem agree_setDt {b b' : Byte} (hb : b = b') (h : c = .delay ∨ Agree s s' c) : Agree (s.setDt b) (s'.setDt b') c := by
  cases c with
  | delay => exact hb
  | _ => exact h.resolve_left nofun

theorem agree_setSt {b b' : Byte} (hb : b = b') (h : c = .sound ∨ Agree s s' c) : Agree (s.setSt b) (s'.setSt b') c := by
  cases c with
  | sound => exact hb
  | _ => exact h.resolve_left nofun

theorem agree_display {fb fb' : Framebuffer} (hf : fb = fb') (h : (anyPixel c ∨ c = .dirty) ∨ Agree s s' c) :
    Agree (s.display fb) (s'.display fb') c := by
  subst hf
  cases c with
  | pixel | dirty => rfl
  | _ => exact h.resolve_left (by simp [anyPixel])

theorem agree_drawRandom (hd : s.rngDraws = s'.rngDraws) (h : c = .rngDraws ∨ Agree s s' c) :
    Agree s.drawRandom.2 s'.drawRandom.2 c := by
  cases c with
  | rngDraws => exact congrArg (· + 1) hd
  | _ => exact h.resolve_left nofun

theorem agree_countKeyDraw (hd : s.keyDraws = s'.keyDraws) (h : c = .keyDraws ∨ Agree s s' c) :
    Agree s.countKeyDraw s'.countKeyDraw c := by
  cases c with
  | keyDraws => exact congrArg (· + 1) hd
  | _ => exact h.resolve_left nofun

theorem agree_raiseFault (k : HardFault) (w : Word) (hpc : s.pc = s'.pc) (hev : s.events = s'.events)
    (h : c ∈ [.fault, .events] ∨ Agree s s' c) : Agree (s.raiseFault k w) (s'.raiseFault k w) c := by
  cases c with
  | fault | events => simp [Agree, State.instrAddr, hpc, hev]
  | _ => exact h.resolve_left (by simp)

theorem agree_memWrite {a a' : Nat} {b b' : Byte} (ha : a = a') (hb : b = b') (h : c = byteAt a ∨ Agree s s' c) :
    Agree (s.memWrite a b) (s'.memWrite a' b') c := by
  subst ha hb
  cases c with
  | byte d =>
    by_cases hd : d.val % Config.memSize = a % Config.memSize
    · simp [Agree, memRead_memWrite, hd]
    · have hne : Component.byte d ≠ byteAt a := by
        rintro e
        simp only [byteAt, Component.byte.injEq] at e
        exact hd (by simp [e, Fin.ofNat])
      simpa [Agree, memRead_memWrite, hd] using h.resolve_left hne
  | _ => exact h.resolve_left nofun

/-! ### Agreement through the loops -/

theorem blockAddr_congr (hI : s.iReg = s'.iReg) (k : Nat) : s.blockAddr k = s'.blockAddr k := by
  rw [State.blockAddr, State.blockAddr, hI]

theorem agree_storeDigits {b b' : Byte} (hI : s.iReg = s'.iReg) (hb : b = b') (h : blockByte s 3 c) :
    Agree (s.storeDigits b) (s'.storeDigits b') c := by
  have ha := blockAddr_congr hI
  subst hb
  obtain ⟨k, hk, rfl⟩ := h
  refine agree_memWrite (ha 2) rfl ?_
  by_cases h2 : k = 2
  · exact Or.inl (by rw [h2])
  refine Or.inr (agree_memWrite (ha 1) rfl ?_)
  by_cases h1 : k = 1
  · exact Or.inl (by rw [h1])
  refine Or.inr (agree_memWrite (ha 0) rfl (Or.inl ?_))
  rw [show k = 0 by omega]

theorem agree_storeRegs {n : Nat} (hI : s.iReg = s'.iReg) (hr : ∀ k, k < n → s.getV (blockReg k) = s'.getV (blockReg k))
    (h : blockByte s n c ∨ Agree s s' c) : Agree (s.storeRegs n) (s'.storeRegs n) c := by
  induction n with
  | zero =>
    refine h.resolve_left ?_
    rintro ⟨k, hk, -⟩
    exact Nat.not_lt_zero k hk
  | succ n ih =>
    rw [State.storeRegs, State.storeRegs]
    simp only [storeRegs_blockAddr, storeRegs_getV]
    refine agree_memWrite (blockAddr_congr hI n) (hr n n.lt_succ_self) ?_
    by_cases hc : c = byteAt (s.blockAddr n)
    · exact Or.inl hc
    · refine Or.inr (ih (fun k hk => hr k (by omega)) (h.imp_left ?_))
      rintro ⟨k, hk, rfl⟩
      have hkn : k ≠ n := fun e => hc (by rw [e])
      exact ⟨k, by omega, rfl⟩

theorem agree_loadRegs_reg {n : Nat} {y : Reg} (hn : n ≤ 16) (hI : s.iReg = s'.iReg)
    (hm : ∀ k, k < n → s.memRead (s.blockAddr k) = s'.memRead (s.blockAddr k)) (hy : y.val < n) :
    Agree (s.loadRegs n) (s'.loadRegs n) (.reg y) := by
  simp only [Agree, loadRegs_getV s hn, loadRegs_getV s' hn, if_pos hy]
  rw [hm y hy, blockAddr_congr hI]

theorem framebuffer_ext {fb fb' : Framebuffer} (h : ∀ py px, fb.pixel py px = fb'.pixel py px) : fb = fb' :=
  Vector.ext fun i hi => Vector.ext fun j hj => by
    simpa [Framebuffer.pixel, Vector.get_eq_getElem] using h ⟨i, hi⟩ ⟨j, hj⟩

/-- A sprite plots alike on two states with one screen, one I and the same sprite bytes. -/
theorem plotRows_congr (cx cy : Byte) {n : Nat} (hf : s.fb = s'.fb) (hI : s.iReg = s'.iReg)
    (hm : ∀ k, k < n → s.memRead (s.blockAddr k) = s'.memRead (s.blockAddr k)) :
    plotRows s cx cy n = plotRows s' cx cy n := by
  induction n with
  | zero => rw [plotRows, plotRows, hf]
  | succ n ih =>
    rw [plotRows, plotRows, ih (fun k hk => hm k (by omega)), hm n n.lt_succ_self, blockAddr_congr hI]

/-! ### Agreement through the instructions that branch -/

/-- The instructions that may raise a hard fault read every component they may write. -/
theorem read_of_mayWrite_of_mayFault {i : Instr}
    (hi : i = .ret ∨ (∃ nnn, i = .call nnn) ∨ ∃ x, i = .skp x ∨ i = .sknp x) (hc : mayWrite s i c) :
    mayRead s i c ∨ alwaysRead c := by
  rcases hi with rfl | ⟨_, rfl⟩ | ⟨_, rfl | rfl⟩ <;>
    (simp only [mayWrite, mayRead, alwaysRead, List.mem_cons, List.not_mem_nil, or_false] at hc ⊢; tauto)

theorem agree_ret (hst : s.stack = s'.stack) (hpc : s.pc = s'.pc) (hev : s.events = s'.events) (hold : Agree s s' c)
    (h : exec .ret s = .next t) (h' : exec .ret s' = .next t') : Agree t t' c := by
  rcases exec_ret_cases h with ⟨he, rfl⟩ | ⟨a, rest, he, rfl⟩ <;>
    rcases exec_ret_cases h' with ⟨he', rfl⟩ | ⟨a', rest', he', rfl⟩
  · exact agree_raiseFault _ _ hpc hev (Or.inr hold)
  · simp [← hst, he] at he'
  · simp [← hst, he] at he'
  · obtain ⟨ha, hr⟩ : a = a' ∧ rest = rest' := by simpa [hst, he'] using he.symm
    exact agree_setPc ha (Or.inr (agree_setStack hr (Or.inr hold)))

theorem agree_call {nnn : Addr} (hst : s.stack = s'.stack) (hp : s.params = s'.params) (hpc : s.pc = s'.pc)
    (hev : s.events = s'.events) (hold : Agree s s' c) (h : exec (.call nnn) s = .next t)
    (h' : exec (.call nnn) s' = .next t') : Agree t t' c := by
  rcases exec_call_cases h with ⟨he, rfl⟩ | ⟨he, rfl⟩ <;>
    rcases exec_call_cases h' with ⟨he', rfl⟩ | ⟨he', rfl⟩
  · exact agree_raiseFault _ _ hpc hev (Or.inr hold)
  · exact absurd (hst ▸ hp ▸ he) he'
  · exact absurd (hst ▸ hp ▸ he') he
  · exact agree_setPc rfl (Or.inr (agree_setStack (by rw [hst, hpc]) (Or.inr hold)))

theorem agree_skipOnKey {b b' : Byte} (want : Bool) (w : Word) (hb : b = b') (hk : ∀ k, s.keyDown k = s'.keyDown k)
    (hpc : s.pc = s'.pc) (hev : s.events = s'.events) (hold : Agree s s' c) :
    Agree (s.skipOnKey b want w) (s'.skipOnKey b' want w) c := by
  subst hb
  rcases skipOnKey_cases s b want w with ⟨hge, h⟩ | ⟨hlt, h⟩ <;>
    rcases skipOnKey_cases s' b want w with ⟨hge', h'⟩ | ⟨hlt', h'⟩
  · rw [h, h']; exact agree_raiseFault _ _ hpc hev (Or.inr hold)
  · omega
  · omega
  · rw [h, h']; exact agree_skipIf (by rw [hk]) hpc (Or.inr hold)

theorem pressedKeys_congr (hk : ∀ k, s.keyDown k = s'.keyDown k) : s.pressedKeys = s'.pressedKeys := by
  rw [State.pressedKeys, State.pressedKeys, funext hk]

/-- The waiting Fx0A leaves Vx as it was in both runs; the one that takes a key takes the same one in both. -/
theorem agree_ldVxK {x : Reg} (hd : s.keyDraws = s'.keyDraws) (hk : ∀ k, s.keyDown k = s'.keyDown k) (hpc : s.pc = s'.pc)
    (h : exec (.ldVxK x) s = .next t) (h' : exec (.ldVxK x) s' = .next t') (hc : mayWrite s (.ldVxK x) c) :
    Agree t t' c ∨ (Agree s t c ∧ Agree s' t' c) := by
  have hch : chooseKey s.keyDraws s.pressedKeys = chooseKey s'.keyDraws s'.pressedKeys := by
    rw [hd, pressedKeys_congr hk]
  simp only [mayWrite, List.mem_cons, List.not_mem_nil, or_false] at hc
  rcases exec_ldVxK_cases h with ⟨he, rfl⟩ | ⟨k, he, rfl⟩ <;>
    rcases exec_ldVxK_cases h' with ⟨he', rfl⟩ | ⟨k', he', rfl⟩
  · rcases hc with rfl | hc | rfl
    · exact Or.inr ⟨rfl, rfl⟩
    · exact Or.inl (agree_setPc (by rw [hpc]) (Or.inl hc))
    · exact Or.inl hd
  · simp [← hch, he] at he'
  · simp [← hch, he] at he'
  · obtain rfl : k = k' := by simpa [hch, he'] using he.symm
    refine Or.inl (agree_setV rfl (hc.imp_right fun hc => agree_countKeyDraw hd ?_))
    rcases hc with rfl | hc
    · exact Or.inr hpc
    · exact Or.inl hc

/-! ### Every instruction -/

theorem agree_drw {x y : Reg} {n : Fin 16} (reads : ∀ c, mayRead s (.drw x y n) c → Agree s s' c)
    (h : exec (.drw x y n) s = .next t) (h' : exec (.drw x y n) s' = .next t') (hc : mayWrite s (.drw x y n) c) :
    Agree t t' c := by
  have hx : s.getV x = s'.getV x := reads (.reg x) (by simp [mayRead])
  have hy : s.getV y = s'.getV y := reads (.reg y) (by simp [mayRead])
  have hI : s.iReg = s'.iReg := reads .index (by simp [mayRead])
  have hf : s.fb = s'.fb := framebuffer_ext fun py px => reads (.pixel py px) (Or.inr (Or.inr ⟨py, px, rfl⟩))
  have hm : ∀ k, k < n.val → s.memRead (s.blockAddr k) = s'.memRead (s.blockAddr k) :=
    fun k hk => (agree_byteAt _).mp (reads _ (Or.inr (Or.inl ⟨k, hk, rfl⟩)))
  cases h; cases h'
  rw [← hx, ← hy, ← plotRows_congr _ _ hf hI hm]
  refine agree_display rfl ?_
  rcases hc with hc | hc
  · exact Or.inl (Or.inl hc)
  · simp only [List.mem_cons, List.not_mem_nil, or_false] at hc
    rcases hc with hc | hc
    · exact Or.inr (agree_setV rfl (Or.inl hc))
    · exact Or.inl (Or.inr hc)

theorem agree_storeBlock {x : Reg} (reads : ∀ c, mayRead s (.storeBlock x) c → Agree s s' c)
    (h : exec (.storeBlock x) s = .next t) (h' : exec (.storeBlock x) s' = .next t') (hc : mayWrite s (.storeBlock x) c) :
    Agree t t' c := by
  have hI : s.iReg = s'.iReg := reads .index (Or.inr rfl)
  have hr : ∀ k, k < blockCount x → s.getV (blockReg k) = s'.getV (blockReg k) := fun k hk => by
    refine reads (.reg (blockReg k)) (Or.inl ⟨_, ?_, rfl⟩)
    simp only [blockReg, blockCount, Fin.le_def, Fin.ofNat] at hk ⊢
    omega
  cases h; cases h'
  refine agree_setI (by simpa using blockAddr_congr hI _) ?_
  rcases hc with hc | hc
  · exact Or.inr (agree_storeRegs hI hr (Or.inl hc))
  · exact Or.inl hc

theorem agree_loadBlock {x : Reg} (reads : ∀ c, mayRead s (.loadBlock x) c → Agree s s' c)
    (h : exec (.loadBlock x) s = .next t) (h' : exec (.loadBlock x) s' = .next t') (hc : mayWrite s (.loadBlock x) c) :
    Agree t t' c := by
  have hI : s.iReg = s'.iReg := reads .index (Or.inl rfl)
  have hm : ∀ k, k < blockCount x → s.memRead (s.blockAddr k) = s'.memRead (s.blockAddr k) :=
    fun k hk => (agree_byteAt _).mp (reads _ (Or.inr ⟨k, hk, rfl⟩))
  cases h; cases h'
  refine agree_setI (by simpa using blockAddr_congr hI _) ?_
  rcases hc with ⟨y, hy, rfl⟩ | hc
  · exact Or.inr (agree_loadRegs_reg (by simp only [blockCount]; omega) hI hm (Nat.lt_succ_of_le (Fin.le_def.mp hy)))
  · exact Or.inl hc

/-- A flag write to VF, then a result into Vx that the two states then hold alike. -/
theorem agree_flag_then_result {x : Reg} {f f' b b' : Byte} (hf : f = f') (hb : b = b') (hc : c ∈ [.reg x, .reg vf]) :
    Agree ((s.setVF f).setV x b) ((s'.setVF f').setV x b') c := by
  simp only [List.mem_cons, List.not_mem_nil, or_false] at hc
  exact agree_setV hb (hc.imp_right fun hc => agree_setV hf (Or.inl hc))

/-- A register after the flag write, equal where the register was. -/
theorem getV_setVF_congr {x : Reg} {f f' : Byte} (hf : f = f') (hx : s.getV x = s'.getV x) :
    (s.setVF f).getV x = (s'.setVF f').getV x :=
  agree_setV (c := .reg x) hf (Or.inr hx)

/-- Settles O51: every arm of `exec` is a composition of the updates above, with arguments the row's reads fix. -/
theorem execDependsOnlyOnWhatTheTableLists : Obligations.ExecDependsOnlyOnWhatTheTableLists := by
  intro i s s' t t' agree h h' c hc
  have reads : ∀ c, mayRead s i c → Agree s s' c := fun c hr => agree c (Or.inl hr)
  have hpc : s.pc = s'.pc := agree .pc (Or.inr (by simp [alwaysRead]))
  have hev : s.events = s'.events := agree .events (Or.inr (by simp [alwaysRead]))
  have hp : s.params = s'.params := agree .params (Or.inr (by simp [alwaysRead]))
  cases i
  case ldVxK x =>
    exact agree_ldVxK (reads .keyDraws (Or.inl rfl)) (fun k => reads (.key k) (Or.inr ⟨k, rfl⟩)) hpc h h' hc
  all_goals left
  case cls => cases h; cases h'; exact agree_display rfl (Or.inl hc)
  case ret => exact agree_ret (reads .stack rfl) hpc hev (agree c (read_of_mayWrite_of_mayFault (by simp) hc)) h h'
  case sys => exact hc.elim
  case jp => cases h; cases h'; exact agree_setPc rfl (Or.inl hc)
  case call => exact agree_call (reads .stack rfl) hp hpc hev (agree c (read_of_mayWrite_of_mayFault (by simp) hc)) h h'
  case seImm x _ | sneImm x _ =>
    have hx : s.getV x = s'.getV x := reads (.reg x) rfl
    cases h; cases h'
    exact agree_skipIf (by rw [hx]) hpc (Or.inl hc)
  case seReg x y | sneReg x y =>
    have hx : s.getV x = s'.getV x := reads (.reg x) (by simp [mayRead])
    have hy : s.getV y = s'.getV y := reads (.reg y) (by simp [mayRead])
    cases h; cases h'
    exact agree_skipIf (by rw [hx, hy]) hpc (Or.inl hc)
  case ldImm => cases h; cases h'; exact agree_setV rfl (Or.inl hc)
  case addImm x _ =>
    have hx : s.getV x = s'.getV x := reads (.reg x) rfl
    cases h; cases h'
    exact agree_setV (by rw [hx]) (Or.inl hc)
  case ldReg x y => cases h; cases h'; exact agree_setV (reads (.reg y) rfl) (Or.inl hc)
  case or x y | and x y | xor x y =>
    have hx : s.getV x = s'.getV x := reads (.reg x) (by simp [mayRead])
    have hy : s.getV y = s'.getV y := reads (.reg y) (by simp [mayRead])
    cases h; cases h'
    exact agree_setV (by rw [hx, hy]) (Or.inl hc)
  case addReg x y =>
    have hx : s.getV x = s'.getV x := reads (.reg x) (by simp [mayRead])
    have hy : s.getV y = s'.getV y := reads (.reg y) (by simp [mayRead])
    simp only [mayWrite, List.mem_cons, List.not_mem_nil, or_false] at hc
    cases h; cases h'
    exact agree_setV (by rw [hx, hy]) (hc.symm.imp_right fun hc => agree_setV (by rw [hx, hy]) (Or.inl hc))
  case sub x y | subn x y =>
    have hx : s.getV x = s'.getV x := reads (.reg x) (by simp [mayRead])
    have hy : s.getV y = s'.getV y := reads (.reg y) (by simp [mayRead])
    cases h; cases h'
    refine agree_flag_then_result (by rw [hx, hy]) ?_ hc
    rw [getV_setVF_congr (by rw [hx, hy]) hx, getV_setVF_congr (by rw [hx, hy]) hy]
  case shr x _ | shl x _ =>
    have hx : s.getV x = s'.getV x := reads (.reg x) rfl
    cases h; cases h'
    refine agree_flag_then_result (by rw [hx]) ?_ hc
    rw [getV_setVF_congr (by rw [hx]) hx]
  case ldI => cases h; cases h'; exact agree_setI rfl (Or.inl hc)
  case jpV0 =>
    have h0 : s.getV 0 = s'.getV 0 := reads (.reg 0) rfl
    cases h; cases h'
    exact agree_setPc (by rw [h0]) (Or.inl hc)
  case rnd =>
    have hd : s.rngDraws = s'.rngDraws := reads .rngDraws rfl
    simp only [mayWrite, List.mem_cons, List.not_mem_nil, or_false] at hc
    cases h; cases h'
    refine agree_setV ?_ (hc.imp_right fun hc => agree_drawRandom hd (Or.inl hc))
    rw [State.drawRandom, State.drawRandom, hd]
  case drw => exact agree_drw reads h h' hc
  case skp x | sknp x =>
    have hk : ∀ k, s.keyDown k = s'.keyDown k := fun k => reads (.key k) (Or.inr ⟨k, rfl⟩)
    cases h; cases h'
    exact agree_skipOnKey _ _ (reads (.reg x) (Or.inl rfl)) hk hpc hev (agree c (read_of_mayWrite_of_mayFault (by simp) hc))
  case ldVxDt => cases h; cases h'; exact agree_setV (reads .delay rfl) (Or.inl hc)
  case ldDtVx x => cases h; cases h'; exact agree_setDt (reads (.reg x) rfl) (Or.inl hc)
  case ldStVx x => cases h; cases h'; exact agree_setSt (reads (.reg x) rfl) (Or.inl hc)
  case addI x =>
    have hI : s.iReg = s'.iReg := reads .index (by simp [mayRead])
    have hx : s.getV x = s'.getV x := reads (.reg x) (by simp [mayRead])
    cases h; cases h'
    exact agree_setI (by rw [hI, hx]) (Or.inl hc)
  case ldF x =>
    have hx : s.getV x = s'.getV x := reads (.reg x) rfl
    cases h; cases h'
    exact agree_setI (by rw [hx]) (Or.inl hc)
  case ldB x =>
    cases h; cases h'
    exact agree_storeDigits (reads .index (by simp [mayRead])) (reads (.reg x) (by simp [mayRead])) hc
  case storeBlock => exact agree_storeBlock reads h h' hc
  case loadBlock => exact agree_loadBlock reads h h' hc

end Sys2Proof.Machine
end

section
/-! What a whole step and the host's calls change: the frame of a step, from the frame of its instruction and of its phases,
and from it who changes the keypad, the stack and the dirty flag (10_state.md R25, R28, R29). -/

namespace Sys2Proof.Machine

variable {s t : State}

/-! ### The components are the whole state -/

theorem registers_ext (h : ∀ x, s.getV x = t.getV x) : s.v = t.v :=
  Vector.ext fun i hi => by simpa [State.getV, Vector.get_eq_getElem] using h ⟨i, hi⟩

theorem keypad_ext (h : ∀ k, s.keyDown k = t.keyDown k) : s.key = t.key :=
  Vector.ext fun i hi => by simpa [State.keyDown, Vector.get_eq_getElem] using h ⟨i, hi⟩

/-- Canonical memories under one set of parameters that read alike at every address are equal. -/
theorem mem_ext (hp : s.params = t.params) (hs : Memory.wf s.params s.mem = true) (ht : Memory.wf t.params t.mem = true)
    (h : ∀ a : Fin 4096, s.memRead a.val = t.memRead a.val) : s.mem = t.mem := by
  refine memory_ext s.params s.mem t.mem 0 hs (hp ▸ ht) fun a ha => ?_
  simpa [State.memRead, Nat.mod_eq_of_lt ha, hp] using h ⟨a, ha⟩

/-- Settles O7: agreement on the components gives each field, by extensionality for the files and for memory. -/
theorem componentsDetermineTheState : Obligations.ComponentsDetermineTheState := by
  intro s t hs ht h
  have hmem := mem_ext (h .params) hs ht fun a => h (.byte a)
  have hv := registers_ext fun x => h (.reg x)
  have hfb := framebuffer_ext fun py px => h (.pixel py px)
  have hkey := keypad_ext fun k => h (.key k)
  cases s; cases t
  rw [State.mk.injEq]
  exact ⟨hmem, hv, h .index, h .pc, h .stack, h .delay, h .sound, hfb, h .dirty, hkey, h .fault, h .params, h .rngDraws,
    h .keyDraws, h .events, h .outcome⟩

/-! ### The frame of a step -/

theorem onlyChanges_beginStep (s : State) : OnlyChanges s (beginStep s) (fun c => c ∈ [.pc, .events]) := by
  intro c hc
  cases c with
  | pc | events => simp at hc
  | _ => rfl

theorem onlyChanges_haltedStep (s : State) : OnlyChanges s (haltedStep s) (fun c => c ∈ [.events, .outcome]) := by
  intro c hc
  cases c with
  | events | outcome => simp at hc
  | _ => rfl

theorem onlyChanges_emit (s : State) (e : Event) : OnlyChanges s (s.emit e) (fun c => c = .events) := by
  intro c hc
  cases c with
  | events => exact absurd rfl hc
  | _ => rfl

/-- Both ends of a step change the timers, the events and the outcome alone. -/
theorem onlyChanges_endStep (u : State) : OnlyChanges u (endStep u) (fun c => c ∈ [.delay, .sound, .events, .outcome]) := by
  rcases endStep_cases u with ⟨-, h⟩ | ⟨-, h⟩
  · rw [h]
    intro c hc
    cases c with
    | outcome => simp at hc
    | _ => rfl
  · rw [h]; exact onlyChanges_completeStep u

/-- What the phases of a step around the execute phase may change (40_step_cycle.md R90). -/
def phaseWrite (c : Component) : Prop := c ∈ [.pc, .delay, .sound, .events, .outcome]

theorem onlyChanges_decodeFaultStep (s : State) (A w : Word) :
    OnlyChanges s (decodeFaultStep (beginStep s) A w) phaseWrite :=
  (((onlyChanges_beginStep s).mono (by simp [phaseWrite])).trans
    ((onlyChanges_emit _ _).of_eq (by simp [phaseWrite]))).trans
    ((onlyChanges_completeStep _).mono (by simp [phaseWrite]))

theorem onlyChanges_execStep {i : Instr} {u : State} (h : exec i (beginStep s) = .next u) :
    OnlyChanges s (endStep u) (fun c => phaseWrite c ∨ mayWrite (beginStep s) i c) := by
  have hbegin : ∀ c, c ∈ [.pc, .events] → phaseWrite c := by simp [phaseWrite]
  have hend : ∀ c, c ∈ [.delay, .sound, .events, .outcome] → phaseWrite c := by simp [phaseWrite]
  exact (((onlyChanges_beginStep s).mono fun c hc => Or.inl (hbegin c hc)).trans
    ((execWritesOnlyWhatTheTableLists i _ u h).mono fun _ hc => Or.inr hc)).trans
    ((onlyChanges_endStep u).mono fun c hc => Or.inl (hend c hc))

/-- Over a step a component that the phases leave alone changes only where the instruction's row lists it. -/
theorem step_agree_or_mayWrite (h : step s = .next t) {c : Component} (hc : ¬ phaseWrite c) :
    Agree s t c ∨ (s.fault = none ∧ ∃ i, decode (fetchWord s) = .ok i ∧ mayWrite (beginStep s) i c) := by
  rcases step_cases h with ⟨_, -, rfl⟩ | ⟨-, _, -, rfl⟩ | ⟨hf, i, u, hd, hu, rfl⟩
  · exact Or.inl ((onlyChanges_haltedStep s).mono (q := phaseWrite) (by simp [phaseWrite]) c hc)
  · exact Or.inl (onlyChanges_decodeFaultStep s _ _ c hc)
  · by_cases hw : mayWrite (beginStep s) i c
    · exact Or.inr ⟨hf, i, hd, hw⟩
    · exact Or.inl (onlyChanges_execStep hu c (by simp [hc, hw]))

/-! ### Which rows list a component -/

/-- No row of the access table lists a key as written (10_state.md R29, R35). -/
theorem not_mayWrite_key (s : State) (i : Instr) (k : Key) : ¬ mayWrite s i (.key k) := by
  cases i <;> simp [mayWrite, anyPixel, blockByte, byteAt, regUpTo]

/-- The rows that list `dirty` are those of 00E0 and Dxyn (10_state.md R28, R35). -/
theorem mayWrite_dirty (s : State) (i : Instr) : mayWrite s i .dirty ↔ i = .cls ∨ ∃ x y n, i = .drw x y n := by
  cases i <;> simp [mayWrite, anyPixel, blockByte, byteAt, regUpTo]

/-- The rows that list the stack are those of 00EE and 2nnn (10_state.md R25, R35). -/
theorem mayWrite_stack (s : State) (i : Instr) : mayWrite s i .stack ↔ i = .ret ∨ ∃ nnn, i = .call nnn := by
  cases i <;> simp [mayWrite, anyPixel, blockByte, byteAt, regUpTo]

/-! ### What the host's calls leave -/

/-- A load of a program changes memory alone (70_reset_and_hazards.md R231). -/
theorem hostLoadProgram_mem (bytes : List Byte) (s : State) :
    (hostLoadProgram bytes s).2 = { s with mem := (hostLoadProgram bytes s).2.mem } := by
  unfold hostLoadProgram
  split
  · rfl
  · next h =>
    have hfit : Config.progBase + bytes.length ≤ 4096 := by simp only [Config.progBase, Config.maxProg] at h ⊢; omega
    obtain ⟨-, -, hmem, -⟩ := copyBytes_spec bytes s Config.progBase hfit
    exact hmem

theorem onlyChanges_freshTick (s : State) : OnlyChanges s s.freshTick (fun c => c ∈ [.delay, .sound, .events]) := by
  have h : OnlyChanges s { s with events := [] } (fun c => c ∈ [.delay, .sound, .events]) := by
    intro c hc
    cases c with
    | events => simp at hc
    | _ => rfl
  unfold State.freshTick
  split
  · exact h
  · exact h.trans (onlyChanges_tick _)

/-- A host tick changes the timers and the events alone (60_exceptions.md R211). -/
theorem onlyChanges_hostTick (s : State) : OnlyChanges s (hostTick s).2 (fun c => c ∈ [.delay, .sound, .events]) := by
  unfold hostTick
  split
  · exact OnlyChanges.same s _
  · exact onlyChanges_freshTick s

@[simp] theorem hostSetKey_dirty (k : Nat) (pressed : Bool) (s : State) : (hostSetKey k pressed s).2.dirty = s.dirty := by
  unfold hostSetKey; split <;> rfl

@[simp] theorem hostIsKeyDown_state (k : Nat) (s : State) : (hostIsKeyDown k s).2 = s := by
  unfold hostIsKeyDown; split <;> rfl

/-! ### The keypad -/

theorem step_key (h : step s = .next t) : t.key = s.key := by
  refine (keypad_ext fun k => ?_).symm
  rcases step_agree_or_mayWrite h (c := .key k) (by simp [phaseWrite]) with ha | ⟨-, i, -, hw⟩
  · exact ha
  · exact absurd hw (not_mayWrite_key _ i k)

theorem hostCall_key {c : HostCall} (h : (hostCall c s).2.key ≠ s.key) : c = .reset ∨ ∃ k b, c = .setKey k b := by
  cases c with
  | reset => exact Or.inl rfl
  | setKey k b => exact Or.inr ⟨k, b, rfl⟩
  | loadProgram bytes => exact absurd (by rw [hostCall, hostLoadProgram_mem]) h
  | isKeyDown k => exact absurd (by rw [hostCall, hostIsKeyDown_state]) h
  | tick => exact absurd (keypad_ext fun k => onlyChanges_hostTick s (.key k) (by simp)).symm h
  | consumeDirtyFrame | readDirty | readFault => exact absurd rfl h

/-- Settles O52: no row lists a key, and every host call but reset and setKey leaves the keypad. -/
theorem keypadChangesOnlyByTheHost : Obligations.KeypadChangesOnlyByTheHost :=
  ⟨fun _ _ h => step_key h, fun _ _ h => hostCall_key h⟩

/-! ### The stack -/

/-- What an instruction does to the stack: nothing, a push below capacity, or a pop into the pc. -/
theorem exec_stack_cases {i : Instr} (h : exec i s = .next t) :
    t.stack = s.stack ∨
    ((∃ nnn, i = .call nnn) ∧ s.stack.length ≠ s.params.stackDepth ∧ t.stack = s.pc :: s.stack) ∨
    (i = .ret ∧ s.stack = t.pc :: t.stack) := by
  by_cases hw : mayWrite s i .stack
  · rcases (mayWrite_stack s i).mp hw with rfl | ⟨nnn, rfl⟩
    · rcases exec_ret_cases h with ⟨-, rfl⟩ | ⟨a, rest, hs, rfl⟩
      · exact Or.inl rfl
      · exact Or.inr (Or.inr ⟨rfl, hs⟩)
    · rcases exec_call_cases h with ⟨-, rfl⟩ | ⟨hs, rfl⟩
      · exact Or.inl rfl
      · exact Or.inr (Or.inl ⟨⟨nnn, rfl⟩, hs, rfl⟩)
  · exact Or.inl (execWritesOnlyWhatTheTableLists i s t h .stack hw).symm

@[simp] theorem endStep_stack (u : State) : (endStep u).stack = u.stack := (onlyChanges_endStep u .stack (by simp)).symm

@[simp] theorem endStep_pc (u : State) : (endStep u).pc = u.pc := (onlyChanges_endStep u .pc (by simp)).symm

/-- Settles O53: the step's phases leave the stack, and the instruction has the three cases above. -/
theorem stackChangesOnlyByCallAndReturn : Obligations.StackChangesOnlyByCallAndReturn := by
  intro s t h
  rcases step_cases h with ⟨_, -, rfl⟩ | ⟨-, _, -, rfl⟩ | ⟨-, i, u, hd, hu, rfl⟩
  · exact Or.inl rfl
  · exact Or.inl (onlyChanges_decodeFaultStep s _ _ .stack (by simp [phaseWrite])).symm
  · rw [endStep_stack, endStep_pc, hd]
    rcases exec_stack_cases hu with hs | ⟨⟨nnn, rfl⟩, hlen, hs⟩ | ⟨rfl, hs⟩
    · exact Or.inl hs
    · exact Or.inr (Or.inl ⟨⟨nnn, rfl⟩, hlen, hs⟩)
    · exact Or.inr (Or.inr ⟨rfl, hs⟩)

/-! ### The dirty flag -/

theorem exec_display_dirty {i : Instr} (h : exec i s = .next t) (hi : i = .cls ∨ ∃ x y n, i = .drw x y n) :
    t.dirty = true := by
  rcases hi with rfl | ⟨x, y, n, rfl⟩ <;> (cases h; rfl)

@[simp] theorem endStep_dirty (u : State) : (endStep u).dirty = u.dirty := (onlyChanges_endStep u .dirty (by simp)).symm

theorem step_display_dirty {i : Instr} (h : step s = .next t) (hf : s.fault = none) (hd : decode (fetchWord s) = .ok i)
    (hi : i = .cls ∨ ∃ x y n, i = .drw x y n) : t.dirty = true := by
  obtain ⟨u, hu⟩ := exec_completes i (beginStep s)
  rw [step_of_exec hf hd hu] at h
  cases h
  rw [endStep_dirty, exec_display_dirty hu hi]

theorem hostCall_dirty {c : HostCall} (h : (hostCall c s).2.dirty ≠ s.dirty) : c = .consumeDirtyFrame ∨ c = .reset := by
  cases c with
  | reset => exact Or.inr rfl
  | consumeDirtyFrame => exact Or.inl rfl
  | loadProgram bytes => exact absurd (by rw [hostCall, hostLoadProgram_mem]) h
  | setKey k b => exact absurd (hostSetKey_dirty k b s) h
  | isKeyDown k => exact absurd (by rw [hostCall, hostIsKeyDown_state]) h
  | tick => exact absurd (onlyChanges_hostTick s .dirty (by simp)).symm h
  | readDirty | readFault => exact absurd rfl h

/-- Settles O54: 00E0 and Dxyn are the rows that list `dirty`, and both set it. -/
theorem dirtyIsSetByDisplayAndClearedByTheHost : Obligations.DirtyIsSetByDisplayAndClearedByTheHost := by
  refine ⟨fun s t h hf => ⟨?_, fun hn => ?_⟩, fun _ _ h => hostCall_dirty h⟩
  · rintro (hd | ⟨x, y, n, hd⟩)
    · exact step_display_dirty h hf hd (Or.inl rfl)
    · exact step_display_dirty h hf hd (Or.inr ⟨x, y, n, rfl⟩)
  · rcases step_agree_or_mayWrite h (c := .dirty) (by simp [phaseWrite]) with ha | ⟨-, i, hd, hw⟩
    · exact ha.symm
    · refine absurd ?_ hn
      rcases (mayWrite_dirty _ i).mp hw with rfl | ⟨x, y, n, rfl⟩
      · exact Or.inl hd
      · exact Or.inr ⟨x, y, n, hd⟩

end Sys2Proof.Machine
end

section
/-! The invariant (Sys2Proof/Safety.lean): it holds after reset, and every step keeps it. -/

namespace Sys2Proof.Machine

variable {s t u : State}

/-! ### Reset -/

theorem inv_resetWith (p : Params) (hp : 1 ≤ p.stackDepth) : Inv (resetWith p) where
  memCanonical := rfl
  indexBelow := by simp [resetWith, State.reset]
  stackBound := Nat.zero_le _
  depthPositive := hp
  eventsBound := Nat.zero_le _
  outcomeFits := by simp [resetWith, State.reset]
  faultAddr := fun _ h => nomatch h
  faultWord := fun _ h => nomatch h

/-- Settles O3: State.reset is the reset state with the default parameters. -/
theorem resetMeetsTheInvariant : Obligations.ResetMeetsTheInvariant :=
  ⟨inv_resetWith defaultParams (by decide), inv_resetWith⟩

/-- A byte of memory after reset is the reset contents of its address (10_state.md R33). -/
theorem reset_memRead {a : Nat} (ha : a < 4096) : State.reset.memRead a = resetByte defaultParams a := by
  rw [State.memRead, Nat.mod_eq_of_lt ha]; rfl

theorem resetByte_of_font_le {p : Params} {a : Nat} (ha : Config.fontSize ≤ a) : resetByte p a = 0#8 :=
  if_neg (Nat.not_lt.mpr ha)

/-- The font bytes that the parameters give are those of the table of 10_state.md R33. -/
theorem resetByte_default : ∀ a, a < 80 → resetByte defaultParams a = conventionalFont.getD a 0#8 := by decide

/-- Settles O1: the fields hold their reset values, and memory its reset contents, the font first. -/
theorem resetLeavesTheSpecifiedState : Obligations.ResetLeavesTheSpecifiedState := by
  refine ⟨by decide, rfl, rfl, rfl, rfl, rfl, pixel_blank, rfl, by decide, rfl, fun a ha => ?_, fun a ha h => ?_⟩
  · rw [reset_memRead (by omega), resetByte_default a ha]
  · rw [reset_memRead h, resetByte_of_font_le ha]

/-! ### The bounds every phase keeps -/

/-- The part of `Inv` that speaks of memory, I and the stack alone, and that holds in the midst of a step too. -/
structure Bounded (s : State) : Prop where
  memCanonical : Memory.wf s.params s.mem = true
  indexBelow : s.iReg.toNat < 4096
  stackBound : s.stack.length ≤ s.params.stackDepth
  depthPositive : 1 ≤ s.params.stackDepth

theorem Inv.bounded (h : Inv s) : Bounded s := ⟨h.memCanonical, h.indexBelow, h.stackBound, h.depthPositive⟩

/-- What `Inv` adds to the bounds: the events, the outcome and the fault record. -/
theorem Bounded.inv (h : Bounded s) (he : s.events.length ≤ 2)
    (ho : s.fault ≠ none ↔ s.outcome = some .faulted ∨ s.outcome = some .halted)
    (hr : ∀ r, s.fault = some r → s.pc = r.addr + 2#16 ∧ r.wordFits) : Inv s :=
  ⟨h.memCanonical, h.indexBelow, h.stackBound, h.depthPositive, he, ho, fun r hf => (hr r hf).1, fun r hf => (hr r hf).2⟩

theorem Bounded.congr (h : Bounded s) (hm : t.mem = s.mem) (hp : t.params = s.params) (hI : t.iReg = s.iReg)
    (hs : t.stack = s.stack) : Bounded t where
  memCanonical := by rw [hp, hm]; exact h.memCanonical
  indexBelow := by rw [hI]; exact h.indexBelow
  stackBound := by rw [hs, hp]; exact h.stackBound
  depthPositive := by rw [hp]; exact h.depthPositive

/-- An instruction leaves I or ends in a masked write of it (10_state.md R23). -/
theorem exec_index_cases {i : Instr} (h : exec i s = .next t) : t.iReg = s.iReg ∨ ∃ u n, t = State.setI u n := by
  have frame := execWritesOnlyWhatTheTableLists i s t h .index
  cases i with
  | ldI | addI | ldF | storeBlock | loadBlock => cases h; exact Or.inr ⟨_, _, rfl⟩
  | _ => exact Or.inl (frame (by simp [mayWrite, anyPixel, blockByte, byteAt])).symm

theorem exec_keeps_indexBelow {i : Instr} (h : exec i s = .next t) (hI : s.iReg.toNat < 4096) : t.iReg.toNat < 4096 := by
  rcases exec_index_cases h with h | ⟨u, n, rfl⟩
  · rwa [h]
  · rw [setI_toNat]; exact Nat.mod_lt _ (by decide)

theorem exec_keeps_stackBound {i : Instr} (h : exec i s = .next t) (hs : s.stack.length ≤ s.params.stackDepth) :
    t.stack.length ≤ t.params.stackDepth := by
  rw [exec_params h]
  rcases exec_stack_cases h with hu | ⟨-, hne, hu⟩ | ⟨-, hu⟩
  · rwa [hu]
  · rw [hu, List.length_cons]; omega
  · rw [hu, List.length_cons] at hs; omega

theorem exec_keeps_bounded {i : Instr} (h : exec i s = .next t) (hb : Bounded s) : Bounded t where
  memCanonical := exec_keeps_wf h hb.memCanonical
  indexBelow := exec_keeps_indexBelow h hb.indexBelow
  stackBound := exec_keeps_stackBound h hb.stackBound
  depthPositive := by rw [exec_params h]; exact hb.depthPositive

/-! ### The ends of a step -/

theorem completeStep_outcome (u : State) : (completeStep u).outcome = some .ran := rfl

/-- The timer phase adds at most a Tone to the events (45_keys_timers.md R187). -/
theorem completeStep_events_length (u : State) : (completeStep u).events.length ≤ u.events.length + 1 := by
  simp only [completeStep]
  split
  · rw [tick_eq]
    by_cases h : u.st = 1#8 <;> simp [h]
  · exact Nat.le_succ _

/-- A step that completes with no fault and at most one event so far ends in a state that meets `Inv`. -/
theorem inv_completeStep (hb : Bounded u) (hf : u.fault = none) (he : u.events.length ≤ 1) : Inv (completeStep u) := by
  obtain ⟨hm, hp, hfault, hI, hs, -⟩ := completeStep_keeps u
  rw [hf] at hfault
  exact (hb.congr hm hp hI hs).inv ((completeStep_events_length u).trans (Nat.succ_le_succ he))
    (by simp [hfault, completeStep_outcome]) (by simp [hfault])

/-- The word of an instruction that raises a hard fault fits the fault's kind (60_exceptions.md R201). -/
theorem raised_wordFits {i : Instr} {k : HardFault} (A : Word)
    (h : (k = .stackOverflow ∧ ∃ nnn, i = .call nnn) ∨ (k = .stackUnderflow ∧ i = .ret) ∨
      (k = .keyIndex ∧ ∃ x, i = .skp x ∨ i = .sknp x)) : FaultRecord.wordFits ⟨k, A, encode i⟩ := by
  rcases h with ⟨rfl, nnn, rfl⟩ | ⟨rfl, rfl⟩ | ⟨rfl, x, rfl | rfl⟩
  · exact Laws.RowPattern.call nnn
  · rfl
  · exact Or.inl (Laws.RowPattern.skp x)
  · exact Or.inr (Laws.RowPattern.sknp x)

/-- A step that raises a hard fault ends in a state that meets `Inv`: the record's A is the pc less 2 (60_exceptions.md
R208). -/
theorem inv_endStep_raiseFault {k : HardFault} {w : Word} (hb : Bounded u) (he : u.events = [])
    (hw : FaultRecord.wordFits ⟨k, u.instrAddr, w⟩) : Inv (endStep (u.raiseFault k w)) := by
  refine Bounded.inv (hb.congr rfl rfl rfl rfl) (by simp [endStep, he]) (by simp [endStep]) ?_
  rintro r ⟨⟩
  exact ⟨(BitVec.sub_add_cancel u.pc 2#16).symm, hw⟩

/-- The end of a step whose instruction ran from a core with no fault and no event yet. -/
theorem inv_endStep_exec {i : Instr} (h : exec i s = .next u) (hb : Bounded s) (hf : s.fault = none) (he : s.events = []) :
    Inv (endStep u) := by
  rcases exec_fault_cases h with ⟨hfu, heu⟩ | ⟨k, rfl, hk⟩
  · have hnone : u.fault = none := hfu.trans hf
    have hend : endStep u = completeStep u := by simp [endStep, hnone]
    rw [hend]
    exact inv_completeStep (exec_keeps_bounded h hb) hnone (by simp [heu, he])
  · refine inv_endStep_raiseFault hb he (raised_wordFits _ ?_)
    rcases hk with ⟨hk, hi, -⟩ | ⟨hk, hi, -⟩ | ⟨hk, x, hi, -⟩
    · exact Or.inl ⟨hk, hi⟩
    · exact Or.inr (Or.inl ⟨hk, hi⟩)
    · exact Or.inr (Or.inr ⟨hk, x, hi⟩)

theorem inv_haltedStep {r : FaultRecord} (h : Inv s) (hf : s.fault = some r) : Inv (haltedStep s) :=
  Bounded.inv (h.bounded.congr rfl rfl rfl rfl) (Nat.zero_le _) (by simp [haltedStep, hf])
    fun r hr => ⟨h.faultAddr r hr, h.faultWord r hr⟩

/-! ### The step -/

/-- Settles O4, by the three cases of a step: halted, an unrecognized word, an instruction. -/
theorem everyStepKeepsTheInvariant : Obligations.EveryStepKeepsTheInvariant := by
  intro s t hi h
  have hb : Bounded (beginStep s) := hi.bounded.congr rfl rfl rfl rfl
  rcases step_cases h with ⟨r, hf, rfl⟩ | ⟨hf, _, -, rfl⟩ | ⟨hf, i, u, -, hu, rfl⟩
  · exact inv_haltedStep hi hf
  · exact inv_completeStep (hb.congr rfl rfl rfl rfl) hf (by simp)
  · exact inv_endStep_exec hu hb hf rfl

end Sys2Proof.Machine
end

section
/-! Memory (20_memory.md): what changes it over a step and between steps, and that a block store over the next word is
what the next step fetches. -/

namespace Sys2Proof.Machine

variable {s t : State}

/-! ### Bytes and frames -/

theorem OnlyChanges.memRead_eq {may : Component → Prop} (h : OnlyChanges s t may) {a : Nat} (ha : ¬ may (byteAt a)) :
    t.memRead a = s.memRead a := ((agree_byteAt a).mp (h (byteAt a) ha)).symm

/-- Addresses that wrap to one place read one byte (20_memory.md R51). -/
theorem memRead_eq_of_mod_eq {a b : Nat} (s : State) (h : a % Config.memSize = b % Config.memSize) :
    s.memRead a = s.memRead b := by
  rw [← memRead_mod s a, h, memRead_mod]

@[simp] theorem endStep_memRead (u : State) (a : Nat) : (endStep u).memRead a = u.memRead a :=
  (onlyChanges_endStep u).memRead_eq (by simp [byteAt])

/-! ### What changes memory -/

/-- The rows of the access table that list a byte of memory as written are those of Fx33 and Fx55 (10_state.md R35). -/
theorem mayWrite_byteAt {i : Instr} {a : Nat} (h : mayWrite s i (byteAt a)) : ∃ x, i = .ldB x ∨ i = .storeBlock x := by
  cases i with
  | ldB x => exact ⟨x, Or.inl rfl⟩
  | storeBlock x => exact ⟨x, Or.inr rfl⟩
  | _ => simp [mayWrite, anyPixel, regUpTo, byteAt] at h

theorem step_memRead_ne {a : Nat} (h : step s = .next t) (hne : t.memRead a ≠ s.memRead a) :
    s.fault = none ∧ ∃ x, decode (fetchWord s) = .ok (.ldB x) ∨ decode (fetchWord s) = .ok (.storeBlock x) := by
  rcases step_agree_or_mayWrite h (c := byteAt a) (by simp [phaseWrite, byteAt]) with ha | ⟨hf, i, hd, hw⟩
  · exact absurd ((agree_byteAt a).mp ha).symm hne
  · obtain ⟨x, rfl | rfl⟩ := mayWrite_byteAt hw
    · exact ⟨hf, x, Or.inl hd⟩
    · exact ⟨hf, x, Or.inr hd⟩

@[simp] theorem hostSetKey_memRead (k : Nat) (pressed : Bool) (s : State) (a : Nat) :
    (hostSetKey k pressed s).2.memRead a = s.memRead a := by
  unfold hostSetKey; split <;> rfl

theorem hostCall_memRead_ne {c : HostCall} {a : Nat} (h : (hostCall c s).2.memRead a ≠ s.memRead a) :
    c = .reset ∨ ∃ bytes, c = .loadProgram bytes := by
  cases c with
  | reset => exact Or.inl rfl
  | loadProgram bytes => exact Or.inr ⟨bytes, rfl⟩
  | setKey k b => exact absurd (hostSetKey_memRead k b s a) h
  | isKeyDown k => exact absurd (by rw [hostCall, hostIsKeyDown_state]) h
  | tick => exact absurd ((onlyChanges_hostTick s).memRead_eq (by simp [byteAt])) h
  | consumeDirtyFrame | readDirty | readFault => exact absurd rfl h

/-- Settles O55: the rows that list a byte are those of Fx33 and Fx55, and the host's other calls leave memory. -/
theorem memoryChangesOnlyByStoresAndTheHost : Obligations.MemoryChangesOnlyByStoresAndTheHost :=
  ⟨fun _ _ _ h => step_memRead_ne h, fun _ _ _ h => hostCall_memRead_ne h⟩

/-! ### A store over the next word -/

/-- The whole step of Fx55. -/
theorem step_storeBlock {x : Reg} (hf : s.fault = none) (hd : decode (fetchWord s) = .ok (.storeBlock x)) :
    step s = .next (endStep (((beginStep s).storeRegs (blockCount x)).advanceI x)) :=
  step_of_exec hf hd rfl

@[simp] theorem storeRegs_pc (s : State) (n : Nat) : (s.storeRegs n).pc = s.pc := by rw [storeRegs_mem]

/-- After the execute phase of Fx55 every address of the block, wrapped, reads its register (44_index_memory.md R164). -/
theorem storeBlock_memRead (s : State) {x : Reg} {k a : Nat} (hk : k ≤ x.val)
    (ha : s.blockAddr k % Config.memSize = a % Config.memSize) :
    ((s.storeRegs (blockCount x)).advanceI x).memRead a = s.getV (blockReg k) := by
  rw [State.advanceI, setI_memRead, ← memRead_eq_of_mod_eq _ ha]
  exact storeRegs_memRead s (Nat.lt_succ_of_le hk) x.isLt

/-- Settles O22: the two bytes that the next step fetches are bytes k and k + 1 of the block. -/
theorem storeIsSeenByTheNextFetch : Obligations.StoreIsSeenByTheNextFetch := by
  intro s x k hf hd hk haddr
  have hnext : (s.iReg.toNat + (k + 1)) % 4096 = ((s.pc + 2#16).toNat + 1) % 4096 := by omega
  have hpc : (endStep (((beginStep s).storeRegs (blockCount x)).advanceI x)).pc = s.pc + 2#16 := by
    rw [endStep_pc, State.advanceI, setI_pc, storeRegs_pc, beginStep_pc]
  refine ⟨_, step_storeBlock hf hd, hpc, ?_⟩
  have hfirst := storeBlock_memRead (beginStep s) (Nat.le_of_succ_le hk) haddr
  have hsecond := storeBlock_memRead (beginStep s) hk hnext
  rw [fetchWord, hpc, endStep_memRead, endStep_memRead, hfirst, hsecond]
  rfl

end Sys2Proof.Machine
end

section
/-! The encoder and the decoder (30_encoding.md R70 to R76): each undoes the other, and the words that decode to no
instruction. -/

namespace Sys2Proof

variable {w : Word} {i : Instr}

/-! ### The word of an instruction decodes to it -/

theorem formatAddr_inj {op : BitVec 4} {a b : Addr} (h : formatAddr op a = formatAddr op b) : a = b := by
  rw [← nnnField_formatAddr op a, h, nnnField_formatAddr]

/-- A word of family 0 that is neither 00E0 nor 00EE is SYS (30_encoding.md R74). -/
theorem decodeFamily0_sys {nnn : Addr} (hcls : nnn ≠ 0x0E0#12) (hret : nnn ≠ 0x0EE#12) :
    decodeFamily0 (formatAddr 0x0#4 nnn) = .sys nnn := by
  have hcls' : formatAddr 0x0#4 nnn ≠ 0x00E0#16 := fun h => hcls (formatAddr_inj (b := 0x0E0#12) h)
  have hret' : formatAddr 0x0#4 nnn ≠ 0x00EE#16 := fun h => hret (formatAddr_inj (b := 0x0EE#12) h)
  simp [decodeFamily0, hcls', hret']

/-- Settles O8, by the families of R74: the decoder reads back the fields the encoder laid out. -/
theorem decodeOfEncodeIsTheInstruction : Obligations.DecodeOfEncodeIsTheInstruction := by
  intro i hi
  cases i with
  | cls | ret => rfl
  | sys nnn =>
    simp only [Instr.wellFormed, Bool.and_eq_true, bne_iff_ne] at hi
    simp [encode, decode, decodeFamily0_sys hi.1 hi.2]
  | ldReg | or | and | xor | addReg | sub | shr | subn | shl => simp [encode, decode, decodeFamily8]
  | skp | sknp => simp [encode, decode, decodeFamilyE]
  | ldVxDt | ldVxK | ldDtVx | ldStVx | addI | ldF | ldB | storeBlock | loadBlock =>
    simp [encode, decode, decodeFamilyF]
  | jp | call | seImm | sneImm | seReg | ldImm | addImm | sneReg | ldI | jpV0 | rnd | drw => simp [encode, decode]

/-! ### A word that decodes is the word of its instruction -/

theorem formatAddr_of_opField {op : BitVec 4} (hop : opField w = op) : formatAddr op (nnnField w) = w :=
  hop ▸ formatAddr_fields w

theorem formatRegByte_of_fields {op : BitVec 4} {nn : Byte} (hop : opField w = op) (hnn : nnField w = nn) :
    formatRegByte op (xField w) nn = w := hop ▸ hnn ▸ formatRegByte_fields w

theorem formatRegReg_of_fields {op f : BitVec 4} (hop : opField w = op) (hf : fnField w = f) :
    formatRegReg op (xField w) (yField w) f = w := hop ▸ hf ▸ formatRegReg_fields w

theorem encode_decodeFamily0 (hop : opField w = 0x0#4) : encode (decodeFamily0 w) = w := by
  unfold decodeFamily0
  split_ifs with hcls hret
  · exact hcls.symm
  · exact hret.symm
  · exact formatAddr_of_opField hop

theorem encode_of_decodeFamily8 (hop : opField w = 0x8#4) (h : decodeFamily8 w = .ok i) : encode i = w := by
  unfold decodeFamily8 at h
  split at h <;> cases h <;> exact formatRegReg_of_fields hop ‹_›

theorem encode_of_decodeFamilyE (hop : opField w = 0xE#4) (h : decodeFamilyE w = .ok i) : encode i = w := by
  unfold decodeFamilyE at h
  split at h <;> cases h <;> exact formatRegByte_of_fields hop ‹_›

theorem encode_of_decodeFamilyF (hop : opField w = 0xF#4) (h : decodeFamilyF w = .ok i) : encode i = w := by
  unfold decodeFamilyF at h
  split at h <;> cases h <;> exact formatRegByte_of_fields hop ‹_›

/-- The decoder drops no bit of a word: each family's format rebuilds it from the fields the family reads. -/
theorem encode_of_decode (h : decode w = .ok i) : encode i = w := by
  unfold decode at h
  split at h
  case h_1 hop => cases h; exact encode_decodeFamily0 hop
  case h_2 hop | h_3 hop | h_11 hop | h_12 hop => cases h; exact formatAddr_of_opField hop
  case h_4 hop | h_5 hop | h_7 hop | h_8 hop | h_13 hop => cases h; exact formatRegByte_of_fields hop rfl
  case h_6 hop | h_10 hop =>
    split at h
    next hf => cases h; exact formatRegReg_of_fields hop hf
    next => cases h
  case h_14 hop => cases h; exact formatRegReg_of_fields hop rfl
  case h_9 hop => exact encode_of_decodeFamily8 hop h
  case h_15 hop => exact encode_of_decodeFamilyE hop h
  case h_16 hop => exact encode_of_decodeFamilyF hop h
  case h_17 => cases h

/-- The words of the two terms that are not well formed decode to CLS and RET (30_encoding.md R74). -/
theorem wellFormed_of_decode (h : decode w = .ok i) : i.wellFormed = true := by
  cases i with
  | sys nnn =>
    have hw : decode (formatAddr 0x0#4 nnn) = .ok (.sys nnn) := by rwa [← encode_of_decode h] at h
    have hcls : nnn ≠ 0x0E0#12 := by rintro rfl; exact absurd hw (by decide)
    have hret : nnn ≠ 0x0EE#12 := by rintro rfl; exact absurd hw (by decide)
    simp [Instr.wellFormed, hcls, hret]
  | _ => rfl

/-- Settles O9. -/
theorem encodeOfDecodeIsTheWord : Obligations.EncodeOfDecodeIsTheWord :=
  fun _ _ h => ⟨encode_of_decode h, wellFormed_of_decode h⟩

/-! ### The unrecognized words -/

/-- A whole-family mask tests the family alone (30_encoding.md R73). -/
theorem and_F000_eq_iff {p : Word} (hp : nnnField p = 0#12) : w &&& 0xF000#16 = p ↔ opField w = opField p := by
  rw [and_F000]
  constructor
  · rintro rfl
    exact (opField_formatAddr ..).symm
  · intro h
    rw [h, ← hp, formatAddr_fields]

/-- A mask of the `n` low bits keeps the field of those bits. -/
theorem and_lowMask (w : Word) (n : Nat) : w &&& BitVec.ofNat 16 (2 ^ n - 1) = (w.extractLsb' 0 n).setWidth 16 := by
  refine BitVec.eq_of_getLsbD_eq fun i hi => ?_
  simp only [BitVec.getLsbD_and, BitVec.getLsbD_ofNat, Nat.testBit_two_pow_sub_one, BitVec.getLsbD_setWidth,
    BitVec.getLsbD_extractLsb', hi, decide_true, Bool.true_and, Nat.zero_add, Bool.and_comm]

/-- The function-nibble mask tests bits 3 to 0 alone. -/
theorem and_000F_eq_iff {k : Nat} (hk : k < 16) : w &&& 0x000F#16 = BitVec.ofNat 16 k ↔ fnField w = BitVec.ofNat 4 k := by
  rw [show w &&& 0x000F#16 = (fnField w).setWidth 16 from and_lowMask w 4]
  bv_omega

/-- The function-byte mask tests bits 7 to 0 alone. -/
theorem and_00FF_eq_iff {k : Nat} (hk : k < 256) : w &&& 0x00FF#16 = BitVec.ofNat 16 k ↔ nnField w = BitVec.ofNat 8 k := by
  rw [show w &&& 0x00FF#16 = (nnField w).setWidth 16 from and_lowMask w 8]
  bv_omega

/-- The nibbles family 8 does not select are those of R75. -/
theorem unlisted_nibble_family8 : ∀ f : BitVec 4, f ∉ [0x0#4, 0x1#4, 0x2#4, 0x3#4, 0x4#4, 0x5#4, 0x6#4, 0x7#4, 0xE#4] ↔
    f ∈ [0x8#4, 0x9#4, 0xA#4, 0xB#4, 0xC#4, 0xD#4, 0xF#4] := by decide

theorem decodeFamily8_unrecognized_iff : decodeFamily8 w = .error (.unrecognized w) ↔
    fnField w ∈ [0x8#4, 0x9#4, 0xA#4, 0xB#4, 0xC#4, 0xD#4, 0xF#4] := by
  rw [← unlisted_nibble_family8, decodeFamily8]
  split <;> simp_all

theorem decodeFamilyE_unrecognized_iff :
    decodeFamilyE w = .error (.unrecognized w) ↔ nnField w ∉ [0x9E#8, 0xA1#8] := by
  unfold decodeFamilyE
  split <;> simp_all

theorem decodeFamilyF_unrecognized_iff : decodeFamilyF w = .error (.unrecognized w) ↔
    nnField w ∉ [0x07#8, 0x0A#8, 0x15#8, 0x18#8, 0x1E#8, 0x29#8, 0x33#8, 0x55#8, 0x65#8] := by
  unfold decodeFamilyF
  split <;> simp_all

/-- The decode procedure refuses a word in the families with a function nibble or byte alone, and there by the family's
test. -/
theorem decode_unrecognized_iff : decode w = .error (.unrecognized w) ↔
    (opField w = 0x5#4 ∧ fnField w ≠ 0x0#4) ∨
    (opField w = 0x8#4 ∧ decodeFamily8 w = .error (.unrecognized w)) ∨
    (opField w = 0x9#4 ∧ fnField w ≠ 0x0#4) ∨
    (opField w = 0xE#4 ∧ decodeFamilyE w = .error (.unrecognized w)) ∨
    (opField w = 0xF#4 ∧ decodeFamilyF w = .error (.unrecognized w)) := by
  unfold decode
  split
  case h_6 hop | h_10 hop => split <;> simp [*]
  case h_17 =>
    exfalso
    generalize opField w = op at *
    revert op
    decide
  all_goals simp [*]

/-- Settles O10: each family's test of its function field, read through the masks of R73. -/
theorem unrecognizedWordsAreExactlyTheListed : Obligations.UnrecognizedWordsAreExactlyTheListed := by
  intro w
  refine decode_unrecognized_iff.trans (Iff.symm ?_)
  refine or_congr (and_congr (and_F000_eq_iff rfl) ?_) <| or_congr (and_congr (and_F000_eq_iff rfl) ?_) <|
    or_congr (and_congr (and_F000_eq_iff rfl) ?_) <| or_congr (and_congr (and_F000_eq_iff rfl) ?_) <|
    and_congr (and_F000_eq_iff rfl) ?_
  · exact not_congr (and_000F_eq_iff (by decide))
  · simp [decodeFamily8_unrecognized_iff, and_000F_eq_iff]
  · exact not_congr (and_000F_eq_iff (by decide))
  · simp [decodeFamilyE_unrecognized_iff, and_00FF_eq_iff]
  · simp [decodeFamilyF_unrecognized_iff, and_00FF_eq_iff]

/-- Settles O11. -/
theorem sampleWordsDecodeAsSpecified : Obligations.SampleWordsDecodeAsSpecified := by
  unfold Obligations.SampleWordsDecodeAsSpecified
  decide

end Sys2Proof
end

section
/-! The step cycle (40_step_cycle.md R90 to R100): the fetch, the end of a step, the ways a step of a running core can end,
and the core that stays halted. -/

namespace Sys2Proof

variable {w : Word} {e : DecodeError}

/-! ### The decode's refusals -/

theorem decodeFamily8_error (h : decodeFamily8 w = .error e) : e = .unrecognized w := by
  unfold decodeFamily8 at h
  split at h <;> cases h
  rfl

theorem decodeFamilyE_error (h : decodeFamilyE w = .error e) : e = .unrecognized w := by
  unfold decodeFamilyE at h
  split at h <;> cases h
  rfl

theorem decodeFamilyF_error (h : decodeFamilyF w = .error e) : e = .unrecognized w := by
  unfold decodeFamilyF at h
  split at h <;> cases h
  rfl

/-- The decode of a whole word refuses it in one way (30_encoding.md R75). -/
theorem decode_error (h : decode w = .error e) : e = .unrecognized w := by
  unfold decode at h
  split at h
  case h_9 => exact decodeFamily8_error h
  case h_15 => exact decodeFamilyE_error h
  case h_16 => exact decodeFamilyF_error h
  case h_6 | h_10 => split at h <;> cases h; rfl
  all_goals cases h
  rfl

theorem wordOfBytes_toNat (a b : Byte) : (wordOfBytes a b).toNat = a.toNat * 256 + b.toNat := by
  rw [wordOfBytes, BitVec.toNat_ofNat]
  omega

end Sys2Proof

namespace Sys2Proof.Machine

variable {s t : State}

/-! ### The timer phase -/

/-- A timer counts down by one and stops at 0 (45_keys_timers.md R187). -/
theorem countDown_toNat (b : Byte) : (if b = 0#8 then 0#8 else b - 1#8).toNat = b.toNat - 1 := by
  split <;> bv_omega

theorem tick_dt_toNat (s : State) : s.tick.dt.toNat = s.dt.toNat - 1 := by
  rw [tick_eq]; exact countDown_toNat s.dt

theorem tick_st_toNat (s : State) : s.tick.st.toNat = s.st.toNat - 1 := by
  rw [tick_eq]; exact countDown_toNat s.st

theorem tick_events (s : State) : s.tick.events = s.events ++ (if s.st = 1#8 then [.tone] else []) := by
  rw [tick_eq]
  by_cases h : s.st = 1#8 <;> simp [h]

theorem completeStep_of_tickInStep (h : s.params.tickInStep = true) :
    completeStep s = { s.tick with outcome := some .ran } := by
  simp [completeStep, h]

theorem completeStep_of_not_tickInStep (h : s.params.tickInStep = false) :
    completeStep s = { s with outcome := some .ran } := by
  simp [completeStep, h]

/-- The timer phase emits nothing, or one Tone and then ST is 0 (45_keys_timers.md R187). -/
theorem completeStep_events_cases (s : State) : (completeStep s).events = s.events ∨
    ((completeStep s).events = s.events ++ [.tone] ∧ (completeStep s).st = 0#8) := by
  rcases hp : s.params.tickInStep
  · rw [completeStep_of_not_tickInStep hp]
    exact Or.inl rfl
  · rw [completeStep_of_tickInStep hp]
    by_cases hst : s.st = 1#8
    · refine Or.inr ⟨by simp [tick_events, hst], BitVec.eq_of_toNat_eq ?_⟩
      simp [tick_st_toNat, hst]
    · exact Or.inl (by simp [tick_events, hst])

theorem completeStep_fault (s : State) : (completeStep s).fault = s.fault :=
  (onlyChanges_completeStep s .fault (by simp)).symm

theorem decodeFaultStep_fault (s : State) (A w : Word) : (decodeFaultStep s A w).fault = s.fault :=
  completeStep_fault _

/-! ### A step that raises a hard fault -/

/-- During the execute phase the instruction's address is the pc the step began with (40_step_cycle.md R93, R95). -/
@[simp] theorem beginStep_instrAddr (s : State) : (beginStep s).instrAddr = s.pc :=
  BitVec.add_sub_cancel s.pc 2#16

/-- The whole step of `s` when its instruction raises `k` (40_step_cycle.md R98): no tick. -/
def hardFaultStep (s : State) (k : HardFault) : State :=
  { (beginStep s).raiseFault k (fetchWord s) with outcome := some .faulted }

theorem endStep_raiseFault (s : State) (k : HardFault) :
    endStep ((beginStep s).raiseFault k (fetchWord s)) = hardFaultStep s k := by
  simp [endStep, hardFaultStep]

@[simp] theorem hardFaultStep_pc (s : State) (k : HardFault) : (hardFaultStep s k).pc = s.pc + 2#16 := rfl

@[simp] theorem hardFaultStep_outcome (s : State) (k : HardFault) : (hardFaultStep s k).outcome = some .faulted := rfl

@[simp] theorem hardFaultStep_fault (s : State) (k : HardFault) :
    (hardFaultStep s k).fault = some { kind := k, addr := s.pc, word := fetchWord s } := by
  simp [hardFaultStep]

@[simp] theorem hardFaultStep_events (s : State) (k : HardFault) :
    (hardFaultStep s k).events = [.hardFault k s.pc (fetchWord s)] := by
  simp [hardFaultStep]

theorem onlyChanges_hardFaultStep (s : State) (k : HardFault) :
    OnlyChanges s (hardFaultStep s k) (fun c => c ∈ [.pc, .fault, .events, .outcome]) := by
  intro c hc
  cases c with
  | pc | fault | events | outcome => simp at hc
  | _ => rfl

/-! ### The step of a running core -/

/-- The three ways a step of a running core ends: its instruction raises a hard fault, its instruction completes, or its
word is unrecognized (40_step_cycle.md R97 to R99). -/
theorem step_running_cases (hf : s.fault = none) (h : step s = .next t) :
    (∃ i k, decode (fetchWord s) = .ok i ∧ exec i (beginStep s) = .next ((beginStep s).raiseFault k (fetchWord s)) ∧
      t = hardFaultStep s k) ∨
    (∃ i u, decode (fetchWord s) = .ok i ∧ exec i (beginStep s) = .next u ∧ u.fault = none ∧ u.events = [] ∧
      t = completeStep u) ∨
    (decode (fetchWord s) = .error (.unrecognized (fetchWord s)) ∧
      t = decodeFaultStep (beginStep s) s.pc (fetchWord s)) := by
  rcases step_cases h with ⟨r, hr, -⟩ | ⟨-, e, hd, rfl⟩ | ⟨-, i, u, hd, hu, rfl⟩
  · cases hf.symm.trans hr
  · exact Or.inr (Or.inr ⟨decode_error hd ▸ hd, rfl⟩)
  · rcases exec_fault_cases hu with ⟨hfu, heu⟩ | ⟨k, rfl, -⟩
    · have hnone : u.fault = none := hfu.trans hf
      exact Or.inr (Or.inl ⟨i, u, hd, hu, hnone, heu, by simp [endStep, hnone]⟩)
    · rw [encode_of_decode hd] at hu ⊢
      exact Or.inl ⟨i, k, hd, hu, endStep_raiseFault s k⟩

/-- Settles O18: of the three ways a step can end, the first alone leaves a fault record. -/
theorem hardFaultsArePrecise : Obligations.HardFaultsArePrecise := by
  intro s t r hf h hr
  rcases step_running_cases hf h with ⟨-, k, -, -, rfl⟩ | ⟨-, u, -, -, hu, -, rfl⟩ | ⟨-, rfl⟩
  · rw [hardFaultStep_fault] at hr
    cases hr
    exact ⟨rfl, rfl, rfl, rfl, hardFaultStep_events s k, onlyChanges_hardFaultStep s k⟩
  · rw [completeStep_fault, hu] at hr; cases hr
  · rw [decodeFaultStep_fault, beginStep_fault, hf] at hr; cases hr

/-- Settles O21: a halted core's step, then the three ways the step of a running core can end. -/
theorem stepEventsAndOutcomeFit : Obligations.StepEventsAndOutcomeFit := by
  intro s t h
  rcases hf : s.fault with _ | r
  · right
    rcases step_running_cases hf h with ⟨-, k, -, -, rfl⟩ | ⟨i, u, hd, -, hu, heu, rfl⟩ | ⟨hd, rfl⟩
    · exact Or.inl ⟨rfl, rfl, _, hardFaultStep_fault s k, hardFaultStep_events s k⟩
    · refine Or.inr ⟨rfl, (completeStep_fault u).trans hu, rfl, ?_⟩
      rcases completeStep_events_cases u with he | ⟨he, hst⟩
      · simp [he, heu, hd]
      · simp [he, heu, hd, hst]
    · refine Or.inr ⟨rfl, (decodeFaultStep_fault _ _ _).trans hf, rfl, ?_⟩
      rcases completeStep_events_cases ((beginStep s).emit (.decodeFault s.pc (fetchWord s))) with he | ⟨he, hst⟩
      · simp [decodeFaultStep, he, hd]
      · simp [decodeFaultStep, he, hd, hst]
  · rw [step_of_fault hf] at h
    cases h
    exact Or.inl ⟨by simp, rfl, rfl⟩

/-- Settles O16: the step is the event and then the timer phase, for both tick settings. -/
theorem unrecognizedWordOnlyAdvances : Obligations.UnrecognizedWordOnlyAdvances := by
  intro s e hf hd
  refine ⟨_, step_of_unrecognized hf hd, ?_, rfl, fun hp => ?_, fun hp => ?_, onlyChanges_decodeFaultStep s _ _⟩
  · exact (onlyChanges_completeStep _ .pc (by simp)).symm
  · rw [decodeFaultStep, completeStep_of_tickInStep (s := (beginStep s).emit _) hp]
    exact ⟨tick_dt_toNat _, tick_st_toNat _, tick_events _⟩
  · rw [decodeFaultStep, completeStep_of_not_tickInStep (s := (beginStep s).emit _) hp]
    exact ⟨rfl, rfl, rfl⟩

/-! ### The halted core -/

/-- A run goes on from the state its first step answers. -/
theorem run_succ_of_next {M : Host.Core} {a b : M.State} (h : M.step a = .next b) (n : Nat) :
    M.run (n + 1) a = M.run n b := by
  rw [Host.Core.run, h]

/-- A second halted step changes nothing more. -/
theorem haltedStep_haltedStep (s : State) : haltedStep (haltedStep s) = haltedStep s := rfl

/-- However often a faulted core is stepped, it ends as after one step (40_step_cycle.md R91). -/
theorem core_run_of_fault {r : FaultRecord} (hf : s.fault = some r) (n : Nat) :
    core.run (n + 1) s = .next (haltedStep s) := by
  induction n generalizing s with
  | zero => exact run_succ_of_next (M := core) (step_of_fault hf) 0
  | succ n ih =>
    calc core.run (n + 2) s
      _ = core.run (n + 1) (haltedStep s) := run_succ_of_next (M := core) (step_of_fault hf) (n + 1)
      _ = .next (haltedStep (haltedStep s)) := ih (s := haltedStep s) hf
      _ = .next (haltedStep s) := by rw [haltedStep_haltedStep]

@[simp] theorem hostSetKey_fault (k : Nat) (pressed : Bool) (s : State) : (hostSetKey k pressed s).2.fault = s.fault := by
  unfold hostSetKey; split <;> rfl

/-- Of the host's calls only reset changes the fault status (60_exceptions.md R209). -/
theorem hostCall_fault {c : HostCall} (h : (hostCall c s).2.fault ≠ s.fault) : c = .reset := by
  cases c with
  | reset => rfl
  | loadProgram bytes => exact absurd (by rw [hostCall, hostLoadProgram_mem]) h
  | setKey k b => exact absurd (hostSetKey_fault k b s) h
  | isKeyDown k => exact absurd (by rw [hostCall, hostIsKeyDown_state]) h
  | tick => exact absurd (onlyChanges_hostTick s .fault (by simp)).symm h
  | consumeDirtyFrame | readDirty | readFault => exact absurd rfl h

/-- Settles O17. -/
theorem faultedCoreStaysHalted : Obligations.FaultedCoreStaysHalted := by
  refine ⟨fun s n hf => ?_, fun _ _ h => hostCall_fault h⟩
  obtain ⟨r, hr⟩ := Option.ne_none_iff_exists'.mp hf
  exact ⟨haltedStep s, core_run_of_fault hr n, rfl, rfl, onlyChanges_haltedStep s⟩

/-! ### The phases of a step -/

/-- Settles O12: big-endian, and 0x1000 wraps to 0x000. -/
theorem fetchIsBigEndianAndWraps : Obligations.FetchIsBigEndianAndWraps := by
  intro s
  have hfetch : (fetchWord s).toNat = (s.memRead s.pc.toNat).toNat * 256 + (s.memRead (s.pc.toNat + 1)).toNat :=
    wordOfBytes_toNat _ _
  refine ⟨hfetch, fun htop => ?_⟩
  have hfirst : s.memRead s.pc.toNat = s.memRead 0xFFF := memRead_eq_of_mod_eq s htop
  have hsecond : s.memRead (s.pc.toNat + 1) = s.memRead 0x000 :=
    memRead_eq_of_mod_eq s (by simp only [Config.memSize]; omega)
  rw [hfetch, hfirst, hsecond]

/-- Settles O14: `endStep` is the abort or the timer phase. -/
theorem stepRunsTheDecodedInstruction : Obligations.StepRunsTheDecodedInstruction :=
  fun _ _ _ hf hd he => step_of_exec hf hd he

/-- Settles O15: the execute phase completes, whatever the instruction. -/
theorem stepAlwaysAnswersANextState : Obligations.StepAlwaysAnswersANextState := by
  intro s
  rcases hf : s.fault with _ | r
  · rcases hd : decode (fetchWord s) with e | i
    · exact ⟨_, step_of_unrecognized hf hd⟩
    · obtain ⟨u, hu⟩ := exec_completes i (beginStep s)
      exact ⟨_, step_of_exec hf hd hu⟩
  · exact ⟨_, step_of_fault hf⟩

end Sys2Proof.Machine
end

section
/-! The display instructions (41_display.md R110 to R113). What Dxyn does to the pixels and to VF is said once, from the
plot's own lemma `plotRows_spec`; a second draw then plots over the first one's screen. -/

namespace Sys2Proof.Machine

/-! ### 00E0 -/

/-- CLS is a whole word in the decoder, not a pattern (30_encoding.md R74). -/
theorem eq_00E0_iff_decode_cls (w : Word) : w = 0x00E0#16 ↔ decode w = .ok .cls :=
  ⟨fun h => h ▸ rfl, fun h => (encode_of_decode h).symm⟩

/-- Settles O35: CLS displays the blank screen. -/
theorem clearScreenBlanksAndMarksDirty : Obligations.ClearScreenBlanksAndMarksDirty :=
  ⟨eq_00E0_iff_decode_cls, fun s =>
    ⟨s.display Framebuffer.blank, rfl, pixel_blank, display_dirty s _, onlyChanges_display s _⟩⟩

/-! ### One draw -/

/-- A whole-family row: the family nibble alone selects DRW (30_encoding.md R73). -/
theorem encodes_drw : Encodes 0xD000#16 0xF000#16 (fun w => .drw (xField w) (yField w) (nField w)) := by
  intro w hw
  have hop : opField w = 0xD#4 := opField_of_match hw rfl
  simp [decode, hop]

section

variable {s t : State} {x y : Reg} {n : Fin 16} (h : exec (.drw x y n) s = .next t)
include h

theorem exec_drw_pixel (py : Row) (px : Col) :
    t.pixel py px = Framebuffer.pixel (plotRows s (s.getV x) (s.getV y) n.val).fb py px := by
  cases h; rfl

theorem exec_drw_getV_vf : t.getV vf = collisionFlag (plotRows s (s.getV x) (s.getV y) n.val).hit := by
  cases h; exact getV_setV_self s vf _

theorem exec_drw_pixel_of_covers {py : Row} {px : Col} (hc : SpriteCovers s (s.getV x) (s.getV y) n.val py px) :
    t.pixel py px = !(s.pixel py px) := by
  obtain ⟨toggled, -, -⟩ := plotRows_spec s (s.getV x) (s.getV y) (Nat.le_of_lt_succ n.isLt)
  rw [exec_drw_pixel h, toggled py px hc]

theorem exec_drw_pixel_of_not_covers {py : Row} {px : Col}
    (hc : ¬ SpriteCovers s (s.getV x) (s.getV y) n.val py px) : t.pixel py px = s.pixel py px := by
  obtain ⟨-, kept, -⟩ := plotRows_spec s (s.getV x) (s.getV y) (Nat.le_of_lt_succ n.isLt)
  rw [exec_drw_pixel h, kept py px hc]

theorem exec_drw_vf_of_collision
    (hl : ∃ py px, SpriteCovers s (s.getV x) (s.getV y) n.val py px ∧ s.pixel py px = true) : t.getV vf = 1#8 := by
  obtain ⟨-, -, hit_iff⟩ := plotRows_spec s (s.getV x) (s.getV y) (Nat.le_of_lt_succ n.isLt)
  rw [exec_drw_getV_vf h, hit_iff.mpr hl]
  rfl

theorem exec_drw_vf_of_no_collision
    (hl : ¬ ∃ py px, SpriteCovers s (s.getV x) (s.getV y) n.val py px ∧ s.pixel py px = true) : t.getV vf = 0#8 := by
  obtain ⟨-, -, hit_iff⟩ := plotRows_spec s (s.getV x) (s.getV y) (Nat.le_of_lt_succ n.isLt)
  rw [exec_drw_getV_vf h, Bool.eq_false_iff.mpr (mt hit_iff.mp hl)]
  rfl

/-- A draw leaves I and memory, so a sprite covers the same pixels after it. -/
theorem exec_drw_spriteCovers (cx cy : Byte) (m : Nat) (py : Row) (px : Col) :
    SpriteCovers t cx cy m py px ↔ SpriteCovers s cx cy m py px := by
  cases h; exact Iff.rfl

/-- A draw exchanges lit and unlit among the pixels it covers. -/
theorem exec_drw_lit_iff_unlit_before :
    (∃ py px, SpriteCovers s (s.getV x) (s.getV y) n.val py px ∧ t.pixel py px = true) ↔
      ∃ py px, SpriteCovers s (s.getV x) (s.getV y) n.val py px ∧ s.pixel py px = false := by
  refine exists_congr fun py => exists_congr fun px => and_congr_right fun hc => ?_
  rw [exec_drw_pixel_of_covers h hc, Bool.not_eq_true']

end

/-- Settles O36: the plot's lemma gives the pixels and VF, the table of 10_state.md R35 the frame. -/
theorem drawTogglesExactlyTheCoveredPixels : Obligations.DrawTogglesExactlyTheCoveredPixels := by
  refine ⟨encodes_drw, fun x y n s => ?_⟩
  obtain ⟨t, h⟩ := exec_completes (.drw x y n) s
  have hdirty : t.dirty = true := exec_display_dirty h (Or.inr ⟨x, y, n, rfl⟩)
  exact ⟨t, h, fun _ _ => exec_drw_pixel_of_covers h, fun _ _ => exec_drw_pixel_of_not_covers h,
    exec_drw_vf_of_collision h, exec_drw_vf_of_no_collision h, hdirty, execWritesOnlyWhatTheTableLists _ s t h⟩

/-! ### Two draws -/

/-- Settles O37: the second draw covers the same pixels, so it toggles each back, and those it finds lit are those the
first found unlit. -/
theorem drawTwiceRestoresTheScreen : Obligations.DrawTwiceRestoresTheScreen := by
  intro x y n s t u hst htu hx hy
  have covers (py : Row) (px : Col) : SpriteCovers t (t.getV x) (t.getV y) n.val py px ↔
      SpriteCovers s (s.getV x) (s.getV y) n.val py px := by
    rw [hx, hy, exec_drw_spriteCovers hst]
  have collides : (∃ py px, SpriteCovers t (t.getV x) (t.getV y) n.val py px ∧ t.pixel py px = true) ↔
      ∃ py px, SpriteCovers s (s.getV x) (s.getV y) n.val py px ∧ s.pixel py px = false := by
    simp only [covers, exec_drw_lit_iff_unlit_before hst]
  refine ⟨fun py px => ?_, fun hl => exec_drw_vf_of_collision htu (collides.mpr hl),
    fun hl => exec_drw_vf_of_no_collision htu (mt collides.mp hl)⟩
  by_cases hc : SpriteCovers s (s.getV x) (s.getV y) n.val py px
  · rw [exec_drw_pixel_of_covers htu ((covers py px).mpr hc), exec_drw_pixel_of_covers hst hc, Bool.not_not]
  · rw [exec_drw_pixel_of_not_covers htu (mt (covers py px).mp hc), exec_drw_pixel_of_not_covers hst hc]

end Sys2Proof.Machine
end

section
/-! Control transfer (42_flow.md R120 to R129): the words of the family, what each transfer does to the pc and the stack,
and that a return undoes the call whose stack it finds. -/

namespace Sys2Proof.Machine

/-! ### The words -/

/-- A whole-family row: the family nibble alone selects the instruction (30_encoding.md R73). -/
theorem encodes_of_family {p : Word} {op : BitVec 4} {f : Word → Instr} (hp : opField p = op)
    (h : ∀ w, opField w = op → decode w = .ok (f w)) : Encodes p 0xF000#16 f :=
  fun w hw => h w ((opField_of_match hw rfl).trans hp)

/-- A function-nibble row: the family nibble and the low nibble select the instruction (30_encoding.md R73). -/
theorem encodes_of_family_fn {p : Word} {op fn : BitVec 4} {f : Word → Instr} (hp : opField p = op) (hn : fnField p = fn)
    (h : ∀ w, opField w = op → fnField w = fn → decode w = .ok (f w)) : Encodes p 0xF00F#16 f :=
  fun w hw => h w ((opField_of_match hw rfl).trans hp) ((fnField_of_match hw rfl).trans hn)

/-- RET is a whole word in the decoder, not a pattern (30_encoding.md R74). -/
theorem eq_00EE_iff_decode_ret (w : Word) : w = 0x00EE#16 ↔ decode w = .ok .ret :=
  ⟨fun h => h ▸ rfl, fun h => (encode_of_decode h).symm⟩

/-- Family 0 less CLS and RET is SYS (30_encoding.md R74). -/
theorem decode_sys {w : Word} (hop : opField w = 0x0#4) (hcls : w ≠ 0x00E0#16) (hret : w ≠ 0x00EE#16) :
    decode w = .ok (.sys (nnnField w)) := by
  simp [decode, hop, decodeFamily0, hcls, hret]

/-! ### Targets, skips, calls and returns -/

@[simp] theorem targetOf_toNat (nnn : Addr) : (targetOf nnn).toNat = nnn.toNat :=
  BitVec.toNat_setWidth_of_le (by decide)

/-- The sum of an address and a byte fits the pc: nothing is lost of it (42_flow.md R128). -/
@[simp] theorem indexedTarget_toNat (nnn : Addr) (b : Byte) : (indexedTarget nnn b).toNat = nnn.toNat + b.toNat := by
  simp only [indexedTarget, BitVec.toNat_add, BitVec.toNat_setWidth]
  omega

variable {s t u : State}

theorem skipIf_pc (s : State) (b : Bool) : (s.skipIf b).pc = if b then s.pc + 2#16 else s.pc := by
  cases b <;> rfl

theorem skipIf_beq_pc (s : State) (a b : Byte) : (s.skipIf (a == b)).pc = if a = b then s.pc + 2#16 else s.pc := by
  simp [skipIf_pc]

theorem skipIf_bne_pc (s : State) (a b : Byte) : (s.skipIf (a != b)).pc = if a = b then s.pc else s.pc + 2#16 := by
  simp [skipIf_pc]

theorem exec_call_of_not_full (nnn : Addr) (h : s.stack.length ≠ s.params.stackDepth) :
    exec (.call nnn) s = .next ((s.push s.pc).setPc (targetOf nnn)) :=
  if_neg (mt (stackFull_iff s).mp h)

theorem exec_call_of_full (nnn : Addr) (h : s.stack.length = s.params.stackDepth) :
    exec (.call nnn) s = .next (s.raiseFault .stackOverflow (encode (.call nnn))) :=
  if_pos ((stackFull_iff s).mpr h)

theorem exec_ret_of_cons {a : Word} {rest : List Word} (h : s.stack = a :: rest) :
    exec .ret s = .next ({ s with stack := rest }.setPc a) := by
  simp only [exec, execRet, pop_some s h]

theorem exec_ret_of_nil (h : s.stack = []) : exec .ret s = .next (s.raiseFault .stackUnderflow (encode .ret)) := by
  simp only [exec, execRet, (pop_none s).mpr h]

/-! ### Frames -/

theorem onlyChanges_raiseFault_list (s : State) (k : HardFault) (w : Word) :
    OnlyChanges s (s.raiseFault k w) (fun c => c ∈ [.fault, .events]) :=
  (onlyChanges_raiseFault s k w).mono (by simp)

/-- A new stack and then a new pc: the frame of a call and of a return. -/
theorem onlyChanges_setStack_setPc (s : State) (l : List Word) (a : Word) :
    OnlyChanges s ({ s with stack := l }.setPc a) (fun c => c ∈ [.pc, .stack]) :=
  ((onlyChanges_setStack s l).of_eq (by simp)).trans ((onlyChanges_setPc _ a).of_eq (by simp))

/-- A component that a frame admits, and that yet reads the same, may be struck from it. -/
theorem OnlyChanges.erase {may : Component → Prop} {d : Component} (h : OnlyChanges s t may) (hd : Agree s t d) :
    OnlyChanges s t (fun c => may c ∧ c ≠ d) := by
  intro c hc
  by_cases hcd : c = d
  · exact hcd ▸ hd
  · exact h c fun hm => hc ⟨hm, hcd⟩

/-- Where neither the pc nor memory changes, the next fetch reads the same word (40_step_cycle.md R92). -/
theorem OnlyChanges.fetchWord_eq {may : Component → Prop} (h : OnlyChanges s t may) (hpc : ¬ may .pc)
    (hmem : ∀ a, ¬ may (byteAt a)) : fetchWord t = fetchWord s := by
  have hpc' : t.pc = s.pc := (h .pc hpc).symm
  rw [fetchWord, fetchWord, hpc', h.memRead_eq (hmem _), h.memRead_eq (hmem _)]

/-! ### SYS and the jumps -/

/-- Settles O38. -/
theorem sysIsANoOperation : Obligations.SysIsANoOperation :=
  ⟨fun _ hw => decode_sys (opField_of_match hw rfl), fun _ _ => rfl⟩

/-- The step of a jump to its own address: the jump takes back the advance of the pc. -/
theorem onlyChanges_step_jp_self {nnn : Addr} (hpc : s.pc.toNat = nnn.toNat) :
    OnlyChanges s (endStep ((beginStep s).setPc (targetOf nnn))) (fun c => c ∈ [.delay, .sound, .events, .outcome]) := by
  have hself : Agree s (endStep ((beginStep s).setPc (targetOf nnn))) .pc := by
    refine BitVec.eq_of_toNat_eq ?_
    rw [endStep_pc, setPc_pc, targetOf_toNat, hpc]
  refine ((onlyChanges_execStep (i := .jp nnn) rfl).erase hself).mono ?_
  rintro c ⟨hc, hne⟩
  simpa [phaseWrite, mayWrite, hne] using hc

/-- Settles O39: a jump to itself ends at the pc it began with, so the frame of its step is that of the timer phase. -/
theorem jumpSetsPcToTheTarget : Obligations.JumpSetsPcToTheTarget := by
  refine ⟨encodes_of_family (op := 0x1#4) rfl fun w hop => by simp [decode, hop],
    fun nnn s => ⟨_, rfl, targetOf_toNat nnn, onlyChanges_setPc s _⟩, fun nnn s hf hd hpc => ?_⟩
  have frame := onlyChanges_step_jp_self hpc
  exact ⟨_, step_of_exec hf hd rfl, frame.fetchWord_eq (by simp) (by simp [byteAt]), frame⟩

/-- Settles O40. -/
theorem indexedJumpAddsV0 : Obligations.IndexedJumpAddsV0 :=
  ⟨encodes_of_family (op := 0xB#4) rfl fun w hop => by simp [decode, hop],
    fun nnn s => ⟨_, rfl, indexedTarget_toNat nnn _, onlyChanges_setPc s _⟩⟩

/-! ### The skips -/

/-- Settles O43. -/
theorem skipsOnAnImmediate : Obligations.SkipsOnAnImmediate :=
  ⟨encodes_of_family (op := 0x3#4) rfl fun w hop => by simp [decode, hop],
    encodes_of_family (op := 0x4#4) rfl fun w hop => by simp [decode, hop],
    fun _ _ s => ⟨⟨_, rfl, skipIf_beq_pc s _ _, onlyChanges_skipIf s _⟩,
      ⟨_, rfl, skipIf_bne_pc s _ _, onlyChanges_skipIf s _⟩⟩⟩

/-- Settles O44. -/
theorem skipsOnTwoRegisters : Obligations.SkipsOnTwoRegisters :=
  ⟨encodes_of_family_fn (op := 0x5#4) (fn := 0x0#4) rfl rfl fun w hop hfn => by simp [decode, hop, hfn],
    encodes_of_family_fn (op := 0x9#4) (fn := 0x0#4) rfl rfl fun w hop hfn => by simp [decode, hop, hfn],
    fun _ _ s => ⟨⟨_, rfl, skipIf_beq_pc s _ _, onlyChanges_skipIf s _⟩,
      ⟨_, rfl, skipIf_bne_pc s _ _, onlyChanges_skipIf s _⟩⟩⟩

/-! ### Call and return -/

/-- Settles O41, by the stack's length. -/
theorem callPushesOrOverflows : Obligations.CallPushesOrOverflows := by
  refine ⟨encodes_of_family (op := 0x2#4) rfl fun w hop => by simp [decode, hop], fun nnn s => ⟨fun h => ?_, fun h => ?_⟩⟩
  · exact ⟨_, exec_call_of_not_full nnn h, targetOf_toNat nnn, rfl, onlyChanges_setStack_setPc s _ _⟩
  · exact ⟨_, exec_call_of_full nnn h, raiseFault_fault s _ _, raiseFault_events s _ _, onlyChanges_raiseFault_list s _ _⟩

/-- Settles O42, by the stack. -/
theorem returnPopsOrUnderflows : Obligations.ReturnPopsOrUnderflows := by
  refine ⟨eq_00EE_iff_decode_ret, fun s => ⟨fun a rest h => ?_, fun h => ?_⟩⟩
  · exact ⟨_, exec_ret_of_cons h, rfl, rfl, onlyChanges_setStack_setPc s _ _⟩
  · exact ⟨_, exec_ret_of_nil h, raiseFault_fault s _ _, raiseFault_events s _ _, onlyChanges_raiseFault_list s _ _⟩

@[simp] theorem endStep_fault (u : State) : (endStep u).fault = u.fault := (onlyChanges_endStep u .fault (by simp)).symm

/-- The stack after the whole step of a call below capacity: the address of the next word, on the caller's stack. -/
theorem step_call_stack {nnn : Addr} (hf : s.fault = none) (hd : decode (fetchWord s) = .ok (.call nnn))
    (hlen : s.stack.length ≠ s.params.stackDepth) (h : step s = .next t) : t.stack = (s.pc + 2#16) :: s.stack := by
  rw [step_of_exec hf hd (exec_call_of_not_full (s := beginStep s) nnn hlen)] at h
  cases h
  exact endStep_stack _

/-- The whole step of a return on a stack with an entry. -/
theorem step_ret_of_cons {a : Word} {rest : List Word} (hf : u.fault = none) (hd : decode (fetchWord u) = .ok .ret)
    (hs : u.stack = a :: rest) :
    ∃ v, step u = .next v ∧ v.pc = a ∧ v.stack = rest ∧ v.fault = none :=
  ⟨_, step_of_exec hf hd (exec_ret_of_cons (s := beginStep u) hs), endStep_pc _, endStep_stack _, (endStep_fault _).trans hf⟩

/-- Settles O45: the return pops what the call pushed. -/
theorem returnUndoesCall : Obligations.ReturnUndoesCall := by
  intro s t u nnn hf hd hlen hst hfu hstack hdu
  exact step_ret_of_cons hfu hdu (hstack.trans (step_call_stack hf hd hlen.ne hst))

end Sys2Proof.Machine
end

section
/-! The register and ALU instructions (43_alu.md R140 to R152): the words of family 8, the flags and the results as numbers,
and what Vx and VF hold when the flag is written before the result (D5). The frames are those of the table of 10_state.md
R35 (O50). -/

namespace Sys2Proof.Machine

/-! ### The words -/

/-- A row of family 8: the function nibble selects the instruction (30_encoding.md R74). -/
theorem encodes_of_family8 {p : Word} {fn : BitVec 4} {f : Word → Instr} (hp : opField p = 0x8#4) (hn : fnField p = fn)
    (h : ∀ w, fnField w = fn → decodeFamily8 w = .ok (f w)) : Encodes p 0xF00F#16 f :=
  encodes_of_family_fn hp hn fun w hop hfn => by simpa [decode, hop] using h w hfn

/-! ### Flags and results as numbers -/

theorem carryFlag_eq (a b : Byte) : carryFlag a b = if a.toNat + b.toNat > 255 then 1#8 else 0#8 := by
  simp [carryFlag, flagByte]

theorem noBorrowFlag_toNat (a b : Byte) : (noBorrowFlag a b).toNat = if a.toNat ≥ b.toNat then 1 else 0 := by
  rw [noBorrowFlag, flagByte]
  by_cases h : a.toNat ≥ b.toNat <;> simp [h]

theorem lowBitFlag_toNat (a : Byte) : (lowBitFlag a).toNat = a.toNat % 2 := by
  rw [lowBitFlag, BitVec.toNat_and]
  exact Nat.and_one_is_mod _

theorem shiftRight_one_toNat (a : Byte) : (a >>> 1).toNat = a.toNat / 2 := by
  rw [BitVec.toNat_ushiftRight, Nat.shiftRight_eq_div_pow, pow_one]

theorem shiftLeft_one_toNat (a : Byte) : (a <<< 1).toNat = a.toNat * 2 % 256 := by
  rw [BitVec.toNat_shiftLeft, Nat.shiftLeft_eq, pow_one]

/-- Bit 7 is the only bit left of a byte after a shift by 7, so the flag's mask loses nothing. -/
theorem highBitFlag_toNat (a : Byte) : (highBitFlag a).toNat = a.toNat / 128 := by
  have hmask : (highBitFlag a).toNat = a.toNat / 128 % 2 := by
    rw [highBitFlag, BitVec.toNat_and, BitVec.toNat_ushiftRight, Nat.shiftRight_eq_div_pow]
    exact Nat.and_one_is_mod _
  omega

theorem sub_toNat (a b : Byte) : (a - b).toNat = (a.toNat + 256 - b.toNat) % 256 := by
  rw [BitVec.toNat_sub]
  omega

/-! ### The flag first, then the result (D5) -/

theorem getV_setVF (s : State) (f : Byte) (y : Reg) : (s.setVF f).getV y = if y = vf then f else s.getV y :=
  getV_setV s vf y f

/-- The flag survives a result that goes to another register than VF. -/
theorem getV_vf_of_flag_then_result (s : State) (f b : Byte) {x : Reg} (hx : x ≠ vf) :
    ((s.setVF f).setV x b).getV vf = f :=
  (getV_setV_ne _ b hx.symm).trans (getV_setV_self s vf f)

/-- A difference formed after the flag's write: VF is the flag in it, on either side. -/
theorem flag_then_difference_toNat (s : State) (f : Byte) (x p q : Reg) :
    (((s.setVF f).setV x ((s.setVF f).getV p - (s.setVF f).getV q)).getV x).toNat =
      ((if p = vf then f else s.getV p).toNat + 256 - (if q = vf then f else s.getV q).toNat) % 256 := by
  rw [getV_setV_self, sub_toNat, getV_setVF, getV_setVF]

theorem getV_self_difference (s : State) (x : Reg) : (s.setV x (s.getV x - s.getV x)).getV x = 0#8 := by
  rw [getV_setV_self, BitVec.sub_self]

/-- Settles O27: the flag's write, then the difference Vx - Vy of the registers it leaves. -/
theorem subtractWritesFlagFirst : Obligations.SubtractWritesFlagFirst := by
  refine ⟨encodes_of_family8 (fn := 0x5#4) rfl rfl fun w hfn => by simp [decodeFamily8, hfn],
    fun x y s a b flag ha hb hflag => ?_⟩
  have hfl : flag = (noBorrowFlag (s.getV x) (s.getV y)).toNat := by rw [noBorrowFlag_toNat, ← ha, ← hb, hflag]
  have difference := flag_then_difference_toNat s (noBorrowFlag (s.getV x) (s.getV y)) x x y
  rw [ha, hb, hfl]
  refine ⟨_, rfl, fun hx => congrArg BitVec.toNat (getV_vf_of_flag_then_result s _ _ hx), fun hx hy => ?_,
    fun hx hy => ?_, fun hx hy => ?_, fun hx hy => ?_, execWritesOnlyWhatTheTableLists (.sub x y) s _ rfl⟩
  · rwa [if_neg hx, if_neg hy] at difference
  · rwa [if_neg hx, if_pos hy] at difference
  · rw [if_pos hx, if_neg hy] at difference
    rwa [← hx]
  · subst hx hy
    exact getV_self_difference _ vf

/-- Settles O28: the flag's write, then the difference Vy - Vx of the registers it leaves. -/
theorem subtractReversedWritesFlagFirst : Obligations.SubtractReversedWritesFlagFirst := by
  refine ⟨encodes_of_family8 (fn := 0x7#4) rfl rfl fun w hfn => by simp [decodeFamily8, hfn],
    fun x y s a b flag ha hb hflag => ?_⟩
  have hfl : flag = (noBorrowFlag (s.getV y) (s.getV x)).toNat := by rw [noBorrowFlag_toNat, ← ha, ← hb, hflag]
  have difference := flag_then_difference_toNat s (noBorrowFlag (s.getV y) (s.getV x)) x y x
  rw [ha, hb, hfl]
  refine ⟨_, rfl, fun hx => congrArg BitVec.toNat (getV_vf_of_flag_then_result s _ _ hx), fun hx hy => ?_,
    fun hx hy => ?_, fun hx hy => ?_, fun hx hy => ?_, execWritesOnlyWhatTheTableLists (.subn x y) s _ rfl⟩
  · rwa [if_neg hx, if_neg hy] at difference
  · rwa [if_neg hx, if_pos hy] at difference
  · rw [if_pos hx, if_neg hy] at difference
    rwa [← hx]
  · subst hx hy
    exact getV_self_difference _ vf

/-! ### The shifts -/

/-- 8xy6 with x not F (R149): bit 0 in VF, the other bits in Vx. -/
theorem shiftRight_after_flag (s : State) {x : Reg} (hx : x ≠ vf) :
    (((s.setVF (lowBitFlag (s.getV x))).shiftRight x).getV vf).toNat = (s.getV x).toNat % 2 ∧
    (((s.setVF (lowBitFlag (s.getV x))).shiftRight x).getV x).toNat = (s.getV x).toNat / 2 := by
  constructor
  · rw [State.shiftRight, getV_vf_of_flag_then_result s _ _ hx, lowBitFlag_toNat]
  · rw [State.shiftRight, getV_setV_self, shiftRight_one_toNat, getV_setVF, if_neg hx]

/-- 8Fy6 (R149): the shift finds the flag in VF, a single bit, and moves it out. -/
theorem shiftRight_vf_after_flag (s : State) : ((s.setVF (lowBitFlag (s.getV vf))).shiftRight vf).getV vf = 0#8 := by
  refine BitVec.eq_of_toNat_eq ?_
  rw [State.shiftRight, getV_setV_self, shiftRight_one_toNat, getV_setVF, if_pos rfl, lowBitFlag_toNat]
  exact Nat.div_eq_of_lt (Nat.mod_lt _ two_pos)

/-- 8xyE with x not F (R151): bit 7 in VF, the other bits in Vx. -/
theorem shiftLeft_after_flag (s : State) {x : Reg} (hx : x ≠ vf) :
    (((s.setVF (highBitFlag (s.getV x))).shiftLeft x).getV vf).toNat = (s.getV x).toNat / 128 ∧
    (((s.setVF (highBitFlag (s.getV x))).shiftLeft x).getV x).toNat = (s.getV x).toNat * 2 % 256 := by
  constructor
  · rw [State.shiftLeft, getV_vf_of_flag_then_result s _ _ hx, highBitFlag_toNat]
  · rw [State.shiftLeft, getV_setV_self, shiftLeft_one_toNat, getV_setVF, if_neg hx]

/-- 8FyE (R151): the shift finds the flag in VF, a single bit, and doubles it. -/
theorem shiftLeft_vf_after_flag (s : State) :
    (((s.setVF (highBitFlag (s.getV vf))).shiftLeft vf).getV vf).toNat = (s.getV vf).toNat / 128 * 2 := by
  rw [State.shiftLeft, getV_setV_self, shiftLeft_one_toNat, getV_setVF, if_pos rfl, highBitFlag_toNat]
  omega

/-- Settles O29, by whether x is F. -/
theorem shiftsMoveOneBitThroughVF : Obligations.ShiftsMoveOneBitThroughVF := by
  refine ⟨encodes_of_family8 (fn := 0x6#4) rfl rfl fun w hfn => by simp [decodeFamily8, hfn],
    encodes_of_family8 (fn := 0xE#4) rfl rfl fun w hfn => by simp [decodeFamily8, hfn], fun x y s a ha => ?_⟩
  rw [ha]
  exact ⟨⟨_, rfl, shiftRight_after_flag s, fun hx => hx ▸ shiftRight_vf_after_flag s,
      execWritesOnlyWhatTheTableLists (.shr x y) s _ rfl⟩,
    ⟨_, rfl, shiftLeft_after_flag s, fun hx => hx ▸ shiftLeft_vf_after_flag s,
      execWritesOnlyWhatTheTableLists (.shl x y) s _ rfl⟩⟩

/-! ### Loads, logic and sums -/

/-- Settles O23. -/
theorem loadImmediateSetsVx : Obligations.LoadImmediateSetsVx :=
  ⟨encodes_of_family (op := 0x6#4) rfl fun w hop => by simp [decode, hop],
    fun x nn s => ⟨_, rfl, getV_setV_self s x nn, onlyChanges_setV s x nn⟩⟩

/-- Settles O24: the sum of two bit vectors is that of R142, mod 256. -/
theorem addImmediateWrapsAndSetsNoFlag : Obligations.AddImmediateWrapsAndSetsNoFlag :=
  ⟨encodes_of_family (op := 0x7#4) rfl fun w hop => by simp [decode, hop],
    fun x nn s => ⟨_, rfl, (congrArg BitVec.toNat (getV_setV_self s x _)).trans (BitVec.toNat_add _ nn),
      onlyChanges_setV s x _⟩⟩

/-- Settles O25: each of the four is one write of Vx. -/
theorem copyAndLogicSetVxAlone : Obligations.CopyAndLogicSetVxAlone :=
  ⟨encodes_of_family8 (fn := 0x0#4) rfl rfl fun w hfn => by simp [decodeFamily8, hfn],
    encodes_of_family8 (fn := 0x1#4) rfl rfl fun w hfn => by simp [decodeFamily8, hfn],
    encodes_of_family8 (fn := 0x2#4) rfl rfl fun w hfn => by simp [decodeFamily8, hfn],
    encodes_of_family8 (fn := 0x3#4) rfl rfl fun w hfn => by simp [decodeFamily8, hfn],
    fun x _ s => ⟨⟨_, rfl, getV_setV_self s x _, onlyChanges_setV s x _⟩,
      ⟨_, rfl, getV_setV_self s x _, onlyChanges_setV s x _⟩,
      ⟨_, rfl, getV_setV_self s x _, onlyChanges_setV s x _⟩,
      ⟨_, rfl, getV_setV_self s x _, onlyChanges_setV s x _⟩⟩⟩

/-- Settles O26: the carry is written last, over the sum where x is F. -/
theorem addRegistersSetsCarry : Obligations.AddRegistersSetsCarry := by
  refine ⟨encodes_of_family8 (fn := 0x4#4) rfl rfl fun w hfn => by simp [decodeFamily8, hfn], fun x y s =>
    ⟨_, rfl, ?carry, fun hx => ?sum, execWritesOnlyWhatTheTableLists (.addReg x y) s _ rfl⟩⟩
  case carry => rw [getV_setVF, if_pos rfl, carryFlag_eq]
  case sum => rw [getV_setVF, if_neg hx, getV_setV_self, BitVec.toNat_add]

/-- Settles O30: the draw moves the counter, the masked byte goes to Vx. -/
theorem randomByteIsMasked : Obligations.RandomByteIsMasked := by
  refine ⟨encodes_of_family (op := 0xC#4) rfl fun w hop => by simp [decode, hop], fun x nn s => ?_⟩
  have hbyte : (s.drawRandom.2.setV x (s.drawRandom.1 &&& nn)).getV x = Config.rng s.rngDraws &&& nn :=
    getV_setV_self _ x _
  exact ⟨_, rfl, hbyte, fun hnn => by rw [hbyte, hnn, BitVec.and_zero], rfl,
    execWritesOnlyWhatTheTableLists (.rnd x nn) s _ rfl⟩

end Sys2Proof.Machine
end

section
/-! The index register and memory (44_index_memory.md R160 to R165): the words of family F, I after an advance, and the
bytes and registers after the digits, the block store and the block load. The frames are those of the updates. -/

namespace Sys2Proof.Machine

/-! ### The words -/

/-- A function-byte row: the family nibble and the low byte select the instruction (30_encoding.md R73). -/
theorem encodes_of_family_byte {p : Word} {op : BitVec 4} {nn : Byte} {f : Word → Instr} (hp : opField p = op)
    (hn : nnField p = nn) (h : ∀ w, opField w = op → nnField w = nn → decode w = .ok (f w)) : Encodes p 0xF0FF#16 f :=
  fun w hw => h w ((opField_of_match hw rfl).trans hp) ((nnField_of_match hw rfl).trans hn)

/-- A row of family F: the function byte selects the instruction (30_encoding.md R74). -/
theorem encodes_of_familyF {p : Word} {nn : Byte} {f : Word → Instr} (hp : opField p = 0xF#4) (hn : nnField p = nn)
    (h : ∀ w, nnField w = nn → decodeFamilyF w = .ok (f w)) : Encodes p 0xF0FF#16 f :=
  encodes_of_family_byte hp hn fun w hop hnn => by simpa [decode, hop] using h w hnn

/-! ### The block at I -/

/-- A store at place `j` of a block is read at that place alone: no block is as long as memory, so two places never wrap
to one byte (20_memory.md R51). -/
theorem memRead_blockAddr_memWrite (s u : State) (b : Byte) {j k : Nat} (hj : j < 4096) (hk : k < 4096) :
    (u.memWrite (s.blockAddr j) b).memRead (s.blockAddr k) = if k = j then b else u.memRead (s.blockAddr k) := by
  have hwrap : s.blockAddr k % Config.memSize = s.blockAddr j % Config.memSize ↔ k = j := by
    simp only [State.blockAddr, Config.memSize]
    omega
  rw [memRead_memWrite, if_congr hwrap rfl rfl]

theorem blockReg_val (k : Reg) : blockReg k.val = k := Fin.ofNat_val_eq_self k

/-- I after a block moves past its last place (44_index_memory.md R164, R165). -/
theorem advanceI_iReg_toNat (u s : State) (x : Reg) (h : u.blockAddr (blockCount x) = s.blockAddr (blockCount x)) :
    (u.advanceI x).iReg.toNat = (s.iReg.toNat + x.val + 1) % 4096 := by
  rw [State.advanceI, setI_toNat, h]
  rfl

/-- Settles O33: the store loop's bytes outlast the advance of I. -/
theorem storeBlockWritesV0ToVxAndAdvancesI : Obligations.StoreBlockWritesV0ToVxAndAdvancesI :=
  ⟨encodes_of_familyF (nn := 0x55#8) rfl rfl fun w hnn => by simp [decodeFamilyF, hnn],
    fun x s => ⟨_, rfl, fun k hk => (storeBlock_memRead s hk rfl).trans (congrArg s.getV (blockReg_val k)),
      advanceI_iReg_toNat _ s x (storeRegs_blockAddr s _ _), onlyChanges_storeBlock s x⟩⟩

/-- After the execute phase of Fx65 every register of the block holds the byte of its place (44_index_memory.md R165). -/
theorem loadBlock_getV (s : State) {x k : Reg} (hk : k ≤ x) :
    ((s.loadRegs (blockCount x)).advanceI x).getV k = s.memRead (s.blockAddr k.val) := by
  rw [State.advanceI, setI_getV, blockCount, loadRegs_getV s x.isLt, if_pos (Nat.lt_succ_of_le hk)]

/-- Settles O34: the load loop's registers outlast the advance of I. -/
theorem loadBlockReadsV0ToVxAndAdvancesI : Obligations.LoadBlockReadsV0ToVxAndAdvancesI :=
  ⟨encodes_of_familyF (nn := 0x65#8) rfl rfl fun w hnn => by simp [decodeFamilyF, hnn],
    fun x s => ⟨_, rfl, fun _ hk => loadBlock_getV s hk, advanceI_iReg_toNat _ s x (loadRegs_blockAddr s _ _),
      onlyChanges_loadBlock s x⟩⟩

/-! ### I alone -/

/-- A value of 12 bits is written to I whole (10_state.md R23). -/
theorem setI_toNat_of_lt (s : State) {n : Nat} (h : n < 4096) : (s.setI n).iReg.toNat = n :=
  (setI_toNat s n).trans (Nat.mod_eq_of_lt h)

/-- The glyph address of any byte, a digit or not, is below 4096 (44_index_memory.md R162). -/
theorem glyphAddr_lt (b : Byte) : glyphAddr b < 4096 := by
  have hb := b.isLt
  rw [glyphAddr]
  omega

/-- The glyph addresses within the font are those of the digits 0 to F. -/
theorem lt_sixteen_iff_glyphAddr_lt (b : Byte) : b.toNat < 16 ↔ glyphAddr b < Config.fontSize := by
  rw [glyphAddr, Config.fontSize]
  omega

/-- Settles O31: each of the three is one write of I, and only the sum of Fx1E can reach 4096. -/
theorem indexInstructionsSetIAlone : Obligations.IndexInstructionsSetIAlone := by
  refine ⟨encodes_of_family (op := 0xA#4) rfl fun w hop => by simp [decode, hop],
    encodes_of_familyF (nn := 0x1E#8) rfl rfl fun w hnn => by simp [decodeFamilyF, hnn],
    encodes_of_familyF (nn := 0x29#8) rfl rfl fun w hnn => by simp [decodeFamilyF, hnn],
    fun nnn s => ⟨_, rfl, setI_toNat_of_lt s nnn.isLt, onlyChanges_setI s _⟩,
    fun x s => ⟨⟨_, rfl, setI_toNat s _, onlyChanges_setI s _⟩, ?glyph⟩⟩
  case glyph =>
    have hI := setI_toNat_of_lt s (glyphAddr_lt (s.getV x))
    exact ⟨_, rfl, hI, by rw [hI]; exact lt_sixteen_iff_glyphAddr_lt (s.getV x), onlyChanges_setI s _⟩

/-! ### The decimal digits -/

theorem hundredsDigit_toNat (b : Byte) : (hundredsDigit b).toNat = b.toNat / 100 := by
  have hb := b.isLt
  rw [hundredsDigit, BitVec.toNat_ofNat]
  omega

theorem tensDigit_toNat (b : Byte) : (tensDigit b).toNat = b.toNat / 10 % 10 := by
  rw [tensDigit, BitVec.toNat_ofNat]
  omega

theorem onesDigit_toNat (b : Byte) : (onesDigit b).toNat = b.toNat % 10 := by
  rw [onesDigit, BitVec.toNat_ofNat]
  omega

/-- The three bytes after Fx33: no digit's store meets another's, also across 0xFFF (44_index_memory.md R163, D1). -/
theorem storeDigits_memRead (s : State) (b : Byte) :
    (s.storeDigits b).memRead (s.blockAddr 0) = hundredsDigit b ∧
    (s.storeDigits b).memRead (s.blockAddr 1) = tensDigit b ∧
    (s.storeDigits b).memRead (s.blockAddr 2) = onesDigit b := by
  simp [State.storeDigits, memRead_blockAddr_memWrite]

/-- Settles O32. -/
theorem decimalDigitsAreStoredAtI : Obligations.DecimalDigitsAreStoredAtI := by
  refine ⟨encodes_of_familyF (nn := 0x33#8) rfl rfl fun w hnn => by simp [decodeFamilyF, hnn], fun x s => ?_⟩
  obtain ⟨hundreds, tens, ones⟩ := storeDigits_memRead s (s.getV x)
  exact ⟨_, rfl, (congrArg BitVec.toNat hundreds).trans (hundredsDigit_toNat _),
    (congrArg BitVec.toNat tens).trans (tensDigit_toNat _), (congrArg BitVec.toNat ones).trans (onesDigit_toNat _),
    onlyChanges_storeDigits s _⟩

end Sys2Proof.Machine
end

section
/-! The keypad and timer instructions (45_keys_timers.md R180 to R187): the words of family E, the key lookup and the key
wait as one equation per case, and the step whose timer phase ticks. -/

namespace Sys2Proof.Machine

variable {s u : State}

/-- A row of family E: the function byte selects the instruction (30_encoding.md R74). -/
theorem encodes_of_familyE {p : Word} {nn : Byte} {f : Word → Instr} (hp : opField p = 0xE#4) (hn : nnField p = nn)
    (h : ∀ w, nnField w = nn → decodeFamilyE w = .ok (f w)) : Encodes p 0xF0FF#16 f :=
  encodes_of_family_byte hp hn fun w hop hnn => by simpa [decode, hop] using h w hnn

/-! ### The skips on a key -/

theorem skipOnKey_of_key (s : State) {b : Byte} {k : Key} (h : b.toNat = k.val) (want : Bool) (w : Word) :
    s.skipOnKey b want w = s.skipIf (s.keyDown k == want) := by
  rcases skipOnKey_cases s b want w with ⟨hb, -⟩ | ⟨hb, hskip⟩
  · omega
  · obtain rfl : (⟨b.toNat, hb⟩ : Key) = k := Fin.ext h
    exact hskip

theorem skipOnKey_of_no_key (s : State) {b : Byte} (h : 15 < b.toNat) (want : Bool) (w : Word) :
    s.skipOnKey b want w = s.raiseFault .keyIndex w := by
  rcases skipOnKey_cases s b want w with ⟨-, hraise⟩ | ⟨hb, -⟩
  · exact hraise
  · omega

theorem exec_skp_of_key {x : Reg} {k : Key} (h : (s.getV x).toNat = k.val) :
    exec (.skp x) s = .next (s.skipIf (s.keyDown k == true)) :=
  congrArg Host.Outcome.next (skipOnKey_of_key s h true _)

theorem exec_sknp_of_key {x : Reg} {k : Key} (h : (s.getV x).toNat = k.val) :
    exec (.sknp x) s = .next (s.skipIf (s.keyDown k == false)) :=
  congrArg Host.Outcome.next (skipOnKey_of_key s h false _)

theorem exec_keySkip_of_no_key {x : Reg} {i : Instr} (hi : i = .skp x ∨ i = .sknp x) (h : 15 < (s.getV x).toNat) :
    exec i s = .next (s.raiseFault .keyIndex (encode i)) := by
  rcases hi with rfl | rfl
  · exact congrArg Host.Outcome.next (skipOnKey_of_no_key s h true _)
  · exact congrArg Host.Outcome.next (skipOnKey_of_no_key s h false _)

theorem skipIf_beq_true_pc (s : State) (b : Bool) : (s.skipIf (b == true)).pc = if b then s.pc + 2#16 else s.pc := by
  rw [skipIf_pc, beq_true]

theorem skipIf_beq_false_pc (s : State) (b : Bool) : (s.skipIf (b == false)).pc = if b then s.pc else s.pc + 2#16 := by
  cases b <;> rfl

/-- Settles O46, by whether there is a key numbered Vx. -/
theorem skipsOnAKey : Obligations.SkipsOnAKey := by
  refine ⟨encodes_of_familyE (nn := 0x9E#8) rfl rfl fun w hnn => by simp [decodeFamilyE, hnn],
    encodes_of_familyE (nn := 0xA1#8) rfl rfl fun w hnn => by simp [decodeFamilyE, hnn],
    fun x s => ⟨fun k hk => ⟨?pressed, ?released⟩, fun hx i hi => ?fault⟩⟩
  case pressed => exact ⟨_, exec_skp_of_key hk, skipIf_beq_true_pc s _, onlyChanges_skipIf s _⟩
  case released => exact ⟨_, exec_sknp_of_key hk, skipIf_beq_false_pc s _, onlyChanges_skipIf s _⟩
  case fault =>
    exact ⟨_, exec_keySkip_of_no_key hi hx, raiseFault_fault s _ _, raiseFault_events s _ _,
      onlyChanges_raiseFault_list s _ _⟩

/-! ### The key wait -/

theorem keyByte_toNat (k : Key) : (keyByte k).toNat = k.val := by
  rw [keyByte, BitVec.toNat_ofNat]
  omega

/-- The draw takes no key exactly when none is pressed (45_keys_timers.md R183). -/
theorem chooseKey_pressedKeys_none (s : State) (c : Nat) :
    chooseKey c s.pressedKeys = none ↔ ∀ k, s.keyDown k = false := by
  simp [chooseKey_none, List.eq_nil_iff_forall_not_mem, mem_pressedKeys]

theorem exec_ldVxK_of_no_key {x : Reg} (h : ∀ k, s.keyDown k = false) :
    exec (.ldVxK x) s = .next (s.setPc (s.pc - 2#16)) := by
  simp only [exec, execLdVxK, (chooseKey_pressedKeys_none s _).mpr h]

theorem exec_ldVxK_of_key {x : Reg} (h : ∃ k, s.keyDown k = true) :
    ∃ k, s.keyDown k = true ∧ exec (.ldVxK x) s = .next (s.countKeyDraw.setV x (keyByte k)) := by
  rcases hc : chooseKey s.keyDraws s.pressedKeys with _ | k
  · obtain ⟨k, hk⟩ := h
    simp [(chooseKey_pressedKeys_none s _).mp hc k] at hk
  · exact ⟨k, (mem_pressedKeys s k).mp (chooseKey_mem hc), by simp only [exec, execLdVxK, hc]⟩

/-- A step whose instruction moves the pc back to its own address (45_keys_timers.md R183). -/
theorem onlyChanges_step_setPc_self (s : State) :
    OnlyChanges s (endStep ((beginStep s).setPc s.pc)) (fun c => c ∈ [.delay, .sound, .events, .outcome]) := by
  have hback : OnlyChanges s ((beginStep s).setPc s.pc) (fun c => c = .events) := by
    intro c hc
    cases c with
    | events => exact absurd rfl hc
    | _ => rfl
  exact (hback.of_eq (by simp)).trans (onlyChanges_endStep _)

/-- The whole step of an Fx0A that waits. -/
theorem step_ldVxK_of_no_key {x : Reg} (hf : s.fault = none) (hd : decode (fetchWord s) = .ok (.ldVxK x))
    (h : ∀ k, s.keyDown k = false) : step s = .next (endStep ((beginStep s).setPc s.pc)) := by
  have hback : (beginStep s).pc - 2#16 = s.pc := beginStep_instrAddr s
  rw [step_of_exec hf hd (exec_ldVxK_of_no_key (s := beginStep s) h), hback]

/-- Settles O49, by whether a key is pressed. -/
theorem keyWaitRepeatsOrStoresAPressedKey : Obligations.KeyWaitRepeatsOrStoresAPressedKey := by
  refine ⟨encodes_of_familyF (nn := 0x0A#8) rfl rfl fun w hnn => by simp [decodeFamilyF, hnn],
    fun x s => ⟨fun h => ?waits, fun h => ?stores⟩, fun x s hf hd h => ?step⟩
  case waits => exact ⟨_, exec_ldVxK_of_no_key h, rfl, onlyChanges_setPc s _⟩
  case stores =>
    obtain ⟨k, hk, he⟩ := exec_ldVxK_of_key (x := x) h
    exact ⟨_, k, he, hk, (congrArg BitVec.toNat (getV_setV_self _ x _)).trans (keyByte_toNat k),
      ((onlyChanges_countKeyDraw s).of_eq (by simp)).trans ((onlyChanges_setV _ x _).of_eq (by simp))⟩
  case step => exact ⟨_, step_ldVxK_of_no_key hf hd h, endStep_pc _, onlyChanges_step_setPc_self s⟩

/-! ### The timers -/

/-- Settles O20. -/
theorem tickCountsBothTimersDown : Obligations.TickCountsBothTimersDown :=
  fun s => ⟨tick_dt_toNat s, tick_st_toNat s, tick_events s, onlyChanges_tick s⟩

@[simp] theorem tick_getV (s : State) (x : Reg) : s.tick.getV x = s.getV x :=
  (onlyChanges_tick s (.reg x) (by simp)).symm

/-- With TICK_IN_STEP, an instruction that completes is followed by a tick (40_step_cycle.md R99). -/
theorem step_of_exec_tick {i : Instr} (hf : s.fault = none) (hp : s.params.tickInStep = true)
    (hd : decode (fetchWord s) = .ok i) (he : exec i (beginStep s) = .next u) (hu : u.fault = none) :
    step s = .next { u.tick with outcome := some .ran } := by
  have hpu : u.params.tickInStep = true := by rw [exec_params he, beginStep_params, hp]
  have hend : endStep u = completeStep u := by simp [endStep, hu]
  rw [step_of_exec hf hd he, hend, completeStep_of_tickInStep hpu]

/-- Settles O47: the tick after Fx07 counts DT down and leaves Vx. -/
theorem readDelayTimerBeforeTheTick : Obligations.ReadDelayTimerBeforeTheTick := by
  refine ⟨encodes_of_familyF (nn := 0x07#8) rfl rfl fun w hnn => by simp [decodeFamilyF, hnn],
    fun x s => ⟨_, rfl, getV_setV_self s x _, onlyChanges_setV s x _⟩, fun x s hf hd hp => ?_⟩
  exact ⟨_, step_of_exec_tick hf hp hd rfl hf, (tick_getV _ x).trans (getV_setV_self _ x _), tick_dt_toNat _⟩

/-- Settles O48: the tick counts from the value the instruction wrote. -/
theorem setTimersThenTheTickCounts : Obligations.SetTimersThenTheTickCounts :=
  ⟨encodes_of_familyF (nn := 0x15#8) rfl rfl fun w hnn => by simp [decodeFamilyF, hnn],
    encodes_of_familyF (nn := 0x18#8) rfl rfl fun w hnn => by simp [decodeFamilyF, hnn],
    fun x s => ⟨⟨_, rfl, setDt_dt s _, onlyChanges_setDt s _⟩, ⟨_, rfl, setSt_st s _, onlyChanges_setSt s _⟩⟩,
    fun _ _ hf hp => ⟨fun hd => ⟨_, step_of_exec_tick hf hp hd rfl hf, tick_dt_toNat _⟩,
      fun hd => ⟨_, step_of_exec_tick hf hp hd rfl hf, tick_st_toNat _, tick_events _⟩⟩⟩

end Sys2Proof.Machine
end

section
/-! The hard faults and the host's calls (60_exceptions.md): the cause of each hard fault, the key calls, the read of the
frame and the host's tick, and the invariant over the host's calls and so over every run. -/

namespace Sys2Proof.Machine

variable {s t : State}

/-! ### The causes of the hard faults -/

/-- The row of the table of faults: where a step of `s` is to raise `k` (60_exceptions.md R201, R203 to R205). -/
def HasCause (s : State) : HardFault → Prop
  | .stackOverflow => (∃ nnn, decode (fetchWord s) = .ok (.call nnn)) ∧ s.stack.length = s.params.stackDepth
  | .stackUnderflow => decode (fetchWord s) = .ok .ret ∧ s.stack = []
  | .keyIndex => ∃ x, (decode (fetchWord s) = .ok (.skp x) ∨ decode (fetchWord s) = .ok (.sknp x)) ∧ 15 < (s.getV x).toNat

/-- Where the table gives a cause, the fetched instruction raises the fault. -/
theorem exec_raises_of_hasCause {k : HardFault} (hk : HasCause s k) : ∃ i, decode (fetchWord s) = .ok i ∧
    exec i (beginStep s) = .next ((beginStep s).raiseFault k (encode i)) := by
  cases k with
  | stackOverflow =>
    obtain ⟨⟨nnn, hd⟩, hfull⟩ := hk
    exact ⟨_, hd, exec_call_of_full nnn hfull⟩
  | stackUnderflow =>
    obtain ⟨hd, hempty⟩ := hk
    exact ⟨_, hd, exec_ret_of_nil hempty⟩
  | keyIndex =>
    obtain ⟨x, hd | hd, hx⟩ := hk
    · exact ⟨_, hd, exec_keySkip_of_no_key (Or.inl rfl) hx⟩
    · exact ⟨_, hd, exec_keySkip_of_no_key (Or.inr rfl) hx⟩

/-- The fetched instruction raises a fault only where the table gives the cause. -/
theorem hasCause_of_exec_raises {i : Instr} {k : HardFault} {w : Word} (hf : s.fault = none)
    (hd : decode (fetchWord s) = .ok i) (h : exec i (beginStep s) = .next ((beginStep s).raiseFault k w)) : HasCause s k := by
  rcases exec_fault_cases h with ⟨hsame, -⟩ | ⟨k', hraise, hcause⟩
  · rw [raiseFault_fault, beginStep_fault, hf] at hsame
    cases hsame
  · have hfault := congrArg State.fault hraise
    rw [raiseFault_fault, raiseFault_fault] at hfault
    cases hfault
    rcases hcause with ⟨rfl, ⟨nnn, rfl⟩, hfull⟩ | ⟨rfl, rfl, hempty⟩ | ⟨rfl, x, rfl | rfl, hx⟩
    · exact ⟨⟨nnn, hd⟩, hfull⟩
    · exact ⟨hd, hempty⟩
    · exact ⟨x, Or.inl hd, hx⟩
    · exact ⟨x, Or.inr hd, hx⟩

theorem step_of_hasCause {k : HardFault} (hf : s.fault = none) (hk : HasCause s k) : step s = .next (hardFaultStep s k) := by
  obtain ⟨i, hd, he⟩ := exec_raises_of_hasCause hk
  rw [encode_of_decode hd] at he
  rw [step_of_exec hf hd he, endStep_raiseFault]

/-- A step of a running core leaves a fault of kind `k` exactly where the table gives `k` a cause. -/
theorem step_fault_kind_iff (hf : s.fault = none) (h : step s = .next t) (k : HardFault) :
    (∃ r, t.fault = some r ∧ r.kind = k) ↔ HasCause s k := by
  constructor
  · rintro ⟨r, hr, rfl⟩
    rcases step_running_cases hf h with ⟨i, k, hd, he, rfl⟩ | ⟨-, u, -, -, hu, -, rfl⟩ | ⟨-, rfl⟩
    · rw [hardFaultStep_fault] at hr
      cases hr
      exact hasCause_of_exec_raises hf hd he
    · rw [completeStep_fault, hu] at hr; cases hr
    · rw [decodeFaultStep_fault, beginStep_fault, hf] at hr; cases hr
  · intro hk
    rw [step_of_hasCause hf hk] at h
    cases h
    exact ⟨_, hardFaultStep_fault s k, rfl⟩

/-- Settles O19: the three rows of `HasCause`. -/
theorem hardFaultsHaveExactlyTheListedCauses : Obligations.HardFaultsHaveExactlyTheListedCauses :=
  fun _ _ hf h => ⟨step_fault_kind_iff hf h .stackOverflow, step_fault_kind_iff hf h .stackUnderflow,
    step_fault_kind_iff hf h .keyIndex⟩

/-! ### The key calls -/

theorem hostSetKey_of_lt {k : Nat} (h : k < 16) (pressed : Bool) (s : State) :
    hostSetKey k pressed s = (.done, { s with key := s.key.set k pressed h }) :=
  dif_pos h

theorem hostSetKey_of_ge {k : Nat} (h : 15 < k) (pressed : Bool) (s : State) : hostSetKey k pressed s = (.refused, s) :=
  dif_neg (Nat.not_lt.mpr h)

theorem hostIsKeyDown_of_lt {k : Nat} (h : k < 16) (s : State) : hostIsKeyDown k s = (.flag (s.keyDown ⟨k, h⟩), s) :=
  dif_pos h

theorem hostIsKeyDown_of_ge {k : Nat} (h : 15 < k) (s : State) : hostIsKeyDown k s = (.refused, s) :=
  dif_neg (Nat.not_lt.mpr h)

/-- A key after a write of key `k` (60_exceptions.md R212). -/
theorem keyDown_set {k : Nat} (h : k < 16) (pressed : Bool) (s : State) (j : Key) :
    { s with key := s.key.set k pressed h }.keyDown j = if j = ⟨k, h⟩ then pressed else s.keyDown j := by
  simp only [State.keyDown, Vector.get_eq_getElem, Vector.getElem_set, Fin.ext_iff, eq_comm]

theorem onlyChanges_setKey {k : Nat} (h : k < 16) (pressed : Bool) (s : State) :
    OnlyChanges s { s with key := s.key.set k pressed h } (fun c => c = .key ⟨k, h⟩) := by
  intro c hc
  cases c with
  | key j =>
    have hne : j ≠ ⟨k, h⟩ := fun hj => hc (congrArg Component.key hj)
    exact ((keyDown_set h pressed s j).trans (if_neg hne)).symm
  | _ => rfl

/-- Settles O58, by whether the index is below 16. -/
theorem keyCallsWriteAndReadOneKey : Obligations.KeyCallsWriteAndReadOneKey :=
  fun s _ pressed =>
    ⟨fun h => ⟨⟨_, hostSetKey_of_lt h pressed s, (keyDown_set h pressed s _).trans (if_pos rfl),
        onlyChanges_setKey h pressed s⟩, hostIsKeyDown_of_lt h s⟩,
      fun h => ⟨hostSetKey_of_ge h pressed s, hostIsKeyDown_of_ge h s⟩⟩

/-! ### The read of the frame -/

theorem onlyChanges_clearDirty (s : State) : OnlyChanges s { s with dirty := false } (fun c => c = .dirty) := by
  intro c hc
  cases c with
  | dirty => exact absurd rfl hc
  | _ => rfl

/-- Settles O59: a second call clears a flag that is off. -/
theorem consumeDirtyFrameReturnsTheFrame : Obligations.ConsumeDirtyFrameReturnsTheFrame :=
  fun s => ⟨{ s with dirty := false }, rfl, rfl, onlyChanges_clearDirty s, rfl⟩

/-! ### The host's tick -/

theorem hostTick_of_tickInStep (h : s.params.tickInStep = true) : hostTick s = (.refused, s) :=
  if_pos h

theorem hostTick_of_not_tickInStep (h : s.params.tickInStep = false) :
    hostTick s = (.ticked s.freshTick.events, s.freshTick) :=
  if_neg (by simp [h])

theorem freshTick_of_running (h : s.fault = none) : s.freshTick = { s with events := [] }.tick := by
  simp [State.freshTick, h]

/-- A faulted core never ticks (D11, log 17). -/
theorem freshTick_of_faulted (h : s.fault ≠ none) : s.freshTick = { s with events := [] } :=
  if_pos (Option.isSome_iff_ne_none.mpr h)

theorem onlyChanges_clearEvents (s : State) : OnlyChanges s { s with events := [] } (fun c => c = .events) := by
  intro c hc
  cases c with
  | events => exact absurd rfl hc
  | _ => rfl

/-- Settles O60: the tick of a running core starts from no event, and a faulted core's events are emptied. -/
theorem hostTickCountsOnlyOutsideSteps : Obligations.HostTickCountsOnlyOutsideSteps := by
  refine fun s => ⟨hostTick_of_tickInStep, fun hp hf => ?running, fun hp hf => ?faulted⟩
  case running =>
    have hevents : s.freshTick.events = if s.st = 1#8 then [.tone] else [] := by
      rw [freshTick_of_running hf, tick_events, List.nil_append]
    refine ⟨s.freshTick, ?_, ?_, ?_, onlyChanges_freshTick s⟩
    · rw [hostCall, hostTick_of_not_tickInStep hp, hevents]
    · rw [freshTick_of_running hf, tick_dt_toNat]
    · rw [freshTick_of_running hf, tick_st_toNat]
  case faulted =>
    refine ⟨{ s with events := [] }, ?_, onlyChanges_clearEvents s⟩
    rw [hostCall, hostTick_of_not_tickInStep hp, freshTick_of_faulted hf]

/-! ### The invariant over the host's calls -/

/-- Beyond the bounds, `Inv` reads the pc, the fault status, the outcome and the number of events alone. -/
theorem Inv.of_bounded (h : Inv s) (hb : Bounded t) (hpc : t.pc = s.pc) (hf : t.fault = s.fault)
    (ho : t.outcome = s.outcome) (he : t.events.length ≤ 2) : Inv t := by
  refine hb.inv he ?_ ?_
  · rw [hf, ho]; exact h.outcomeFits
  · rw [hf, hpc]; exact fun r hr => ⟨h.faultAddr r hr, h.faultWord r hr⟩

/-- `Inv` reads none of the registers, the timers, the screen, the keypad and the draw counters. -/
theorem Inv.congr (h : Inv s) (he : t.events.length ≤ 2) (hm : t.mem = s.mem := by rfl) (hp : t.params = s.params := by rfl)
    (hI : t.iReg = s.iReg := by rfl) (hs : t.stack = s.stack := by rfl) (hpc : t.pc = s.pc := by rfl)
    (hf : t.fault = s.fault := by rfl) (ho : t.outcome = s.outcome := by rfl) : Inv t :=
  h.of_bounded (h.bounded.congr hm hp hI hs) hpc hf ho he

/-- A program that is not oversized fits between PROG_BASE and the top of memory (00_scope.md R6). -/
theorem progBase_add_length_le {bytes : List Byte} (h : ¬ bytes.length > Config.maxProg) :
    Config.progBase + bytes.length ≤ 4096 := by
  simp only [Config.progBase, Config.maxProg] at h ⊢
  omega

/-- A load keeps the canonical form of memory (70_reset_and_hazards.md R231). -/
theorem hostLoadProgram_wf (bytes : List Byte) (h : Memory.wf s.params s.mem = true) :
    Memory.wf s.params (hostLoadProgram bytes s).2.mem = true := by
  unfold hostLoadProgram
  split
  · exact h
  · next hlen =>
    obtain ⟨-, -, -, hwf⟩ := copyBytes_spec bytes s Config.progBase (progBase_add_length_le hlen)
    exact hwf h

/-- The host's reset differs from `resetWith` in the draw counters alone (log 22). -/
theorem inv_hostReset (h : Inv s) : Inv s.hostReset :=
  (inv_resetWith s.params h.depthPositive).congr (Nat.zero_le _)

theorem inv_hostLoadProgram (h : Inv s) (bytes : List Byte) : Inv (hostLoadProgram bytes s).2 := by
  rw [hostLoadProgram_mem]
  exact h.of_bounded ⟨hostLoadProgram_wf bytes h.memCanonical, h.indexBelow, h.stackBound, h.depthPositive⟩ rfl rfl rfl
    h.eventsBound

theorem inv_hostSetKey (h : Inv s) (k : Nat) (pressed : Bool) : Inv (hostSetKey k pressed s).2 := by
  rcases Nat.lt_or_ge k 16 with hk | hk
  · rw [hostSetKey_of_lt hk]
    exact h.congr h.eventsBound
  · rw [hostSetKey_of_ge hk]
    exact h

theorem inv_tick (h : Inv s) (he : s.events = []) : Inv s.tick := by
  have hevents : s.tick.events.length ≤ 2 := by
    rw [tick_events, he]
    split <;> simp
  rw [tick_eq] at hevents ⊢
  exact h.congr hevents

theorem inv_clearEvents (h : Inv s) : Inv { s with events := [] } :=
  h.congr (Nat.zero_le _)

theorem inv_hostTick (h : Inv s) : Inv (hostTick s).2 := by
  rcases hp : s.params.tickInStep
  · rw [hostTick_of_not_tickInStep hp]
    by_cases hf : s.fault = none
    · rw [freshTick_of_running hf]
      exact inv_tick (inv_clearEvents h) rfl
    · rw [freshTick_of_faulted hf]
      exact inv_clearEvents h
  · rw [hostTick_of_tickInStep hp]
    exact h

/-- Settles O5, call by call. -/
theorem everyHostCallKeepsTheInvariant : Obligations.EveryHostCallKeepsTheInvariant := by
  intro s c h
  cases c with
  | reset => exact inv_hostReset h
  | loadProgram bytes => exact inv_hostLoadProgram h bytes
  | setKey k pressed => exact inv_hostSetKey h k pressed
  | isKeyDown k => rw [hostCall, hostIsKeyDown_state]; exact h
  | consumeDirtyFrame => exact h.congr h.eventsBound
  | tick => exact inv_hostTick h
  | readDirty | readFault => exact h

/-! ### The runs -/

/-- Every state of every run from reset meets the invariant (60_exceptions.md R216). -/
theorem Reachable.inv (h : Reachable s) : Inv s := by
  induction h with
  | reset p hp => exact inv_resetWith p hp
  | step u v _ hstep ih => exact everyStepKeepsTheInvariant u v ih hstep
  | call u c _ ih => exact everyHostCallKeepsTheInvariant u c ih

/-- Settles O6: the invariant gives the pc of a halted core, and its step is the halted one. -/
theorem reachableStatesMeetTheInvariant : Obligations.ReachableStatesMeetTheInvariant :=
  fun _ h => ⟨h.inv, fun r hf => ⟨h.inv.faultAddr r hf, step_of_fault hf⟩⟩

end Sys2Proof.Machine
end

section
/-! Reset, the load of a program and the fetch of a placed word (70_reset_and_hazards.md R230 to R232). -/

namespace Sys2Proof.Machine

/-! ### The host's reset -/

theorem hostReset_getV (s : State) (x : Reg) : s.hostReset.getV x = 0#8 := by
  simp [State.getV, State.hostReset, State.reset, Vector.get_eq_getElem]

theorem hostReset_keyDown (s : State) (k : Key) : s.hostReset.keyDown k = false := by
  simp [State.keyDown, State.hostReset, State.reset, Vector.get_eq_getElem]

theorem hostReset_memRead (s : State) {a : Nat} (ha : a < 4096) : s.hostReset.memRead a = resetByte s.params a := by
  rw [State.memRead, Nat.mod_eq_of_lt ha]; rfl

/-- Glyph `k` of the font stands at `5k` (10_state.md R33). -/
theorem resetByte_glyph (p : Params) {k r : Nat} (hk : k < 16) (hr : r < 5) : resetByte p (5 * k + r) = glyphByte p k r := by
  have hfont : 5 * k + r < Config.fontSize := by simp only [Config.fontSize]; omega
  have hdiv : (5 * k + r) / 5 = k := by omega
  have hmod : (5 * k + r) % 5 = r := by omega
  rw [resetByte, if_pos hfont, hdiv, hmod]

/-- Glyphs 1 to F are the parameter's (00_scope.md R7). -/
theorem glyphByte_succ (p : Params) {k r : Nat} (hk : k < 15) (hr : r < 5) :
    glyphByte p (k + 1) r = (p.glyphs[k])[r] := by
  simp [glyphByte, hk, hr]

/-- Settles O2: the fields hold their reset values, and memory its reset contents, for every font of the parameters. -/
theorem hostResetRestoresEveryComponent : Obligations.HostResetRestoresEveryComponent := by
  refine fun s => ⟨s.hostReset, rfl, hostReset_getV s, rfl, rfl, rfl, rfl, rfl, pixel_blank, rfl, hostReset_keyDown s, rfl,
    rfl, rfl, ⟨rfl, rfl, rfl, rfl, rfl⟩, fun k r hk hr => ?glyph, fun a ha h => ?above, rfl, rfl, rfl⟩
  case glyph => rw [hostReset_memRead s (by omega), resetByte_glyph _ (by omega) hr, glyphByte_succ _ hk hr]
  case above => rw [hostReset_memRead s h, resetByte_of_font_le ha]

/-! ### The load of a program -/

theorem hostLoadProgram_of_gt {bytes : List Byte} (h : bytes.length > Config.maxProg) (s : State) :
    hostLoadProgram bytes s = (.loadError, s) :=
  if_pos h

theorem hostLoadProgram_of_le {bytes : List Byte} (h : ¬ bytes.length > Config.maxProg) (s : State) :
    hostLoadProgram bytes s = (.done, s.copyBytes Config.progBase bytes) :=
  if_neg h

/-- Settles O57: a program that is not oversized fits below the top of memory, where its copy is in place. -/
theorem loadProgramCopiesOrRejectsWhole : Obligations.LoadProgramCopiesOrRejectsWhole := by
  refine fun bytes s => ⟨fun h => hostLoadProgram_of_gt h s, fun h => ?_⟩
  have hfits : ¬ bytes.length > Config.maxProg := Nat.not_lt.mpr h
  obtain ⟨hbytes, hframe, -, -⟩ := copyBytes_spec bytes s Config.progBase (progBase_add_length_le hfits)
  exact ⟨_, hostLoadProgram_of_le hfits s, hbytes, hframe⟩

/-! ### The fetch of a placed word -/

theorem tableWord_toNat (w : Word) : tableWord 16 w.toNat = w := by
  rw [tableWord, Nat.mod_eq_of_lt w.isLt, BitVec.ofNat_toNat, BitVec.setWidth_eq]

theorem placeWord_memRead (s : State) (w : Word) (a : Nat) : (placeWord s w).memRead a =
    ((s.memWrite s.pc.toNat (firstByte w)).memWrite (s.pc.toNat + 1) (secondByte w)).memRead a := rfl

/-- The two bytes of a placed word wrap to different addresses, so the fetch finds both (20_memory.md R51, R53). -/
theorem fetchWord_placeWord (s : State) (w : Word) : fetchWord (placeWord s w) = w := by
  have hne : s.pc.toNat % Config.memSize ≠ (s.pc.toNat + 1) % Config.memSize := by
    simp only [Config.memSize]
    omega
  have hpc : (placeWord s w).pc = s.pc := rfl
  have hfirst : (placeWord s w).memRead s.pc.toNat = firstByte w := by
    rw [placeWord_memRead, memRead_memWrite, if_neg hne, memRead_memWrite, if_pos rfl]
  have hsecond : (placeWord s w).memRead (s.pc.toNat + 1) = secondByte w := by
    rw [placeWord_memRead, memRead_memWrite, if_pos rfl]
  rw [fetchWord, hpc, hfirst, hsecond, wordOfBytes_bytes]

theorem onlyChanges_clearFault (s : State) : OnlyChanges s { s with fault := none } (fun c => c = .fault) := by
  intro c hc
  cases c with
  | fault => exact absurd rfl hc
  | _ => rfl

theorem onlyChanges_placeWord (s : State) (w : Word) : OnlyChanges s (placeWord s w)
    (fun c => c = byteAt s.pc.toNat ∨ c = byteAt (s.pc.toNat + 1) ∨ c = .fault) :=
  ((onlyChanges_memWrite s _ (firstByte w)).of_eq (by simp)).trans
    (((onlyChanges_memWrite _ _ (secondByte w)).of_eq (by simp)).trans ((onlyChanges_clearFault _).of_eq (by simp)))

/-- Settles O13, from the fetch and the frame of `placeWord`. -/
theorem placedWordIsFetchedNext : Obligations.PlacedWordIsFetchedNext := by
  intro s w
  rw [State.withFetchWord, tableWord_toNat]
  exact ⟨fetchWord_placeWord s w, rfl, onlyChanges_placeWord s w⟩

end Sys2Proof.Machine
end
